-- ==== Sys2Proof/Word.lean ====
section
/-!
DEFINITION. The word types of JSONB-NDEC: a byte of the buffer (R30), the 16-bit numeric header word and digit
(R54, R58), and the 32-bit entry word and operand register (R51, R11). All arithmetic on positions and lengths is done
on natural numbers (R31), so no arithmetic on these types is defined here.
-/

namespace Sys2Proof

/-- One byte of the buffer (R30). -/
abbrev Byte := BitVec 8

/-- A 16-bit word: the numeric header word or one digit (R54, R58). -/
abbrev Half := BitVec 16

/-- A 32-bit word: an entry word, the length word, an operand register (R11, R51, R60). -/
abbrev Word := BitVec 32

/-- A command code, the 4-bit value written to `CMD` (R64). -/
abbrev OpCode := BitVec 4

end Sys2Proof
end

