-- ==== Sys2Proof/Machine/Binary64.lean ====
section
/-!
DEFINITION. `rne64` (R112): the binary64 bit pattern, sign bit excluded, nearest to a non-negative rational, ties to
even, gradual underflow (UNVERIFIED, G5, log entry 14). A rational `q` is given as `num / den` with `den > 0`; every
step is exact on natural numbers.
-/

namespace Sys2Proof.Machine

/-- `num / den` rounded to an integer, halves to the even one (R112 `round_half_even`). -/
def roundHalfEven (num den : Nat) : Nat :=
  if 2 * (num % den) < den then num / den
  else if den < 2 * (num % den) then num / den + 1
  else num / den + num / den % 2

/-- The numerator of `num / 2^e`, over the denominator of `scaledDen`. -/
def scaledNum (num : Nat) (e : Int) : Nat := num * 2 ^ (-e).toNat

/-- The denominator of `(num / den) / 2^e`. -/
def scaledDen (den : Nat) (e : Int) : Nat := den * 2 ^ e.toNat

/-- `floor(log2 (num / den))` for `num, den > 0` (R112). The difference of the two logarithms is the answer or one more
than it. -/
def floorLog2 (num den : Nat) : Int :=
  let e : Int := (num.log2 : Int) - (den.log2 : Int)
  if scaledDen den e ≤ scaledNum num e then e else e - 1

/-- A normal result from its 53-bit significand `m` and exponent `e`, `m = 2^53` carrying into the exponent (R112). -/
def packNormal (m : Nat) (e : Int) : Nat :=
  if m = 2 ^ 53 then (e + 1 + 1023).toNat * 2 ^ 52
  else (e + 1023).toNat * 2 ^ 52 + (m - 2 ^ 52)

/-- `rne64 (num / den)`, a 63-bit pattern (R112). -/
def rne64 (num den : Nat) : Nat :=
  if num = 0 then 0
  else if -1022 ≤ floorLog2 num den then
    packNormal
      (roundHalfEven (scaledNum num (floorLog2 num den - 52)) (scaledDen den (floorLog2 num den - 52)))
      (floorLog2 num den)
  else roundHalfEven (scaledNum num (-1074)) (scaledDen den (-1074))

end Sys2Proof.Machine
end

