-- ==== Sys2Proof/Syntax.lean ====
section
/-!
DEFINITION. The rows of spec/opcode_table.json as one inductive, in the table's order: nine command codes (format
`CMD4`, R64), eight entry word patterns (format `ENTRY32`, R51, R52) and seven numeric header word patterns (format
`NUMHDR16`, R54 to R63). A constructor carries the bits its row does not fix.
-/

namespace Sys2Proof

/-- One constructor per row of the opcode table (R67). -/
inductive Instr where
  /-- `EOFFLEN`, `CMD` = 1 (R80). -/
  | eofflen
  /-- `EHASOFF`, `CMD` = 2 (R81). -/
  | ehasoff
  /-- `ETYPE`, `CMD` = 3 (R82). -/
  | etype
  /-- `EDEC`, `CMD` = 4 (R83). -/
  | edec
  /-- `ELOAD`, `CMD` = 5 (R84). -/
  | eload
  /-- `NUMDEC`, `CMD` = 6 (R100). -/
  | numdec
  /-- `NUMFDEC`, `CMD` = 7 (R121). -/
  | numfdec
  /-- `RESERVED`, `CMD` = 0 (R66). -/
  | reservedZero
  /-- `RESERVED`, `CMD` = 8 to 15 (R66); `low` is bits 2:0 of the code. -/
  | reservedHigh (low : BitVec 3)
  /-- `ENTRY.STRING` (R85). -/
  | entryString (hasoff : BitVec 1) (offlen : BitVec 28)
  /-- `ENTRY.NUMERIC` (R86). -/
  | entryNumeric (hasoff : BitVec 1) (offlen : BitVec 28)
  /-- `ENTRY.BOOL_FALSE` (R87). -/
  | entryBoolFalse (hasoff : BitVec 1) (offlen : BitVec 28)
  /-- `ENTRY.BOOL_TRUE` (R88). -/
  | entryBoolTrue (hasoff : BitVec 1) (offlen : BitVec 28)
  /-- `ENTRY.NULL` (R89). -/
  | entryNull (hasoff : BitVec 1) (offlen : BitVec 28)
  /-- `ENTRY.CONTAINER` (R90). -/
  | entryContainer (hasoff : BitVec 1) (offlen : BitVec 28)
  /-- `ENTRY.RESERVED6` (R91). -/
  | entryReserved6 (hasoff : BitVec 1) (offlen : BitVec 28)
  /-- `ENTRY.RESERVED7` (R92). -/
  | entryReserved7 (hasoff : BitVec 1) (offlen : BitVec 28)
  /-- `NUM.LONGPOS` (R119); bits 13:0 have no meaning (R63). -/
  | numLongPos (ignored : BitVec 14)
  /-- `NUM.LONGNEG` (R120); bits 13:0 have no meaning (R63). -/
  | numLongNeg (ignored : BitVec 14)
  /-- `NUM.SHORT` (R105): sign bit 13, dscale bits 12:7, weight bits 6:0 (R56). -/
  | numShort (sign : BitVec 1) (dscale : BitVec 6) (weight : BitVec 7)
  /-- `NUM.NAN` (R115). -/
  | numNan
  /-- `NUM.PINF` (R116). -/
  | numPinf
  /-- `NUM.NINF` (R117). -/
  | numNinf
  /-- `NUM.SPECIAL_BAD` (R118): any other Special header word; `special` is bits 13:0. -/
  | numSpecialBad (special : BitVec 14)
  deriving DecidableEq, Repr

end Sys2Proof
end

