-- ==== Sys2Proof/Config.lean ====
section
/-!
DEFINITION. What the spec fixes once for the machine: the parameters of R4 at the values it gives them, the command
codes of R64, and the register numbers of R10. The values of the tag, variant and special codes are marked by the spec
itself as general knowledge (G1 to G3): they are named here and used by name everywhere (log entries 10, 11, 12).
`NDIGITS_MAX` is taken as unbounded, as R4 and R123 allow, so it is no constant (log entry 15).
-/

namespace Sys2Proof.Config

/-! ### Command codes (R64) -/

/-- `EOFFLEN` (R64, R80). -/
def opEofflen : OpCode := 1
/-- `EHASOFF` (R64, R81). -/
def opEhasoff : OpCode := 2
/-- `ETYPE` (R64, R82). -/
def opEtype : OpCode := 3
/-- `EDEC` (R64, R83). -/
def opEdec : OpCode := 4
/-- `ELOAD` (R64, R84). -/
def opEload : OpCode := 5
/-- `NUMDEC` (R64, R100). -/
def opNumdec : OpCode := 6
/-- `NUMFDEC` (R64, R121). -/
def opNumfdec : OpCode := 7

/-! ### Entry type tags (R4, R52; UNVERIFIED, G1, log entry 10) -/

/-- `TAG_STRING` (R52, R85). -/
def tagString : BitVec 3 := 0
/-- `TAG_NUMERIC` (R52, R86). -/
def tagNumeric : BitVec 3 := 1
/-- `TAG_BOOL_FALSE` (R52, R87). -/
def tagBoolFalse : BitVec 3 := 2
/-- `TAG_BOOL_TRUE` (R52, R88). -/
def tagBoolTrue : BitVec 3 := 3
/-- `TAG_NULL` (R52, R89). -/
def tagNull : BitVec 3 := 4
/-- `TAG_CONTAINER` (R52, R90). -/
def tagContainer : BitVec 3 := 5
/-- The first unused tag code (R53, R91). -/
def tagUnused6 : BitVec 3 := 6
/-- The second unused tag code (R53, R92). -/
def tagUnused7 : BitVec 3 := 7

/-! ### `E_TYPE` numbers of the six variants (R14, D34) -/

/-- 0 STRING (R14). -/
def typeString : BitVec 3 := 0
/-- 1 NUMERIC (R14). -/
def typeNumeric : BitVec 3 := 1
/-- 2 BOOL_FALSE (R14). -/
def typeBoolFalse : BitVec 3 := 2
/-- 3 BOOL_TRUE (R14). -/
def typeBoolTrue : BitVec 3 := 3
/-- 4 NULL (R14). -/
def typeNull : BitVec 3 := 4
/-- 5 CONTAINER (R14). -/
def typeContainer : BitVec 3 := 5

/-! ### Numeric variants, header bits 15:14 (R4, R55; UNVERIFIED, G2, log entry 11) -/

/-- `NT_LONGPOS` (R55). -/
def ntLongPos : BitVec 2 := 0b00
/-- `NT_LONGNEG` (R55). -/
def ntLongNeg : BitVec 2 := 0b01
/-- `NT_SHORT` (R55). -/
def ntShort : BitVec 2 := 0b10
/-- `NT_SPECIAL` (R55). -/
def ntSpecial : BitVec 2 := 0b11

/-! ### Special header words (R4, R59; UNVERIFIED, G3, log entry 12) -/

/-- `SP_NAN` (R59, R115). -/
def spNan : Half := 0xC000
/-- `SP_PINF` (R59, R116). -/
def spPinf : Half := 0xD000
/-- `SP_NINF` (R59, R117). -/
def spNinf : Half := 0xF000

/-! ### Binary64 patterns of the special values (R115 to R117; UNVERIFIED, G5, log entry 14) -/

/-- The canonical quiet NaN (R115). -/
def fvalNan : BitVec 64 := 0x7FF8000000000000
/-- Positive infinity (R116). -/
def fvalPinf : BitVec 64 := 0x7FF0000000000000
/-- Negative infinity (R117). -/
def fvalNinf : BitVec 64 := 0xFFF0000000000000

/-! ### Register numbers (R10) -/

/-- `CMD`, write-only, reads 0 (R12). -/
def regCmd : Nat := 0
/-- `STATUS` (R13). -/
def regStatus : Nat := 1
/-- `BUFLEN` (R11). -/
def regBuflen : Nat := 2
/-- `POS` (R11). -/
def regPos : Nat := 3
/-- `LEN` (R11). -/
def regLen : Nat := 4
/-- `EWORD` (R11). -/
def regEword : Nat := 5

/-! ### Memory -/

/-- What a byte of the buffer that the host has never written reads as. DESIGN CHOICE: the spec gives no byte there
(the host owes every byte before the command, R182); unsafe (log entry 5). -/
def unlistedByte : Byte := 0

end Sys2Proof.Config
end

