-- ==== Sys2Proof/WellFormed.lean ====
section
/-!
DEFINITION. Which terms of `Instr` stand for a row's word. Every field has its exact width in its type, so one check is
left: a `NUM.SPECIAL_BAD` term whose bits are those of a special value belongs to that value's row, since the row with
the larger mask wins (R59, R67).
-/

namespace Sys2Proof

/-- The 14 bits below the variant of a Special header word (R59). -/
def specialBits (h : Half) : BitVec 14 := h.extractLsb' 0 14

/-- The term stands for a word of its own row (R67). -/
def Instr.WellFormed : Instr → Bool
  | .numSpecialBad b =>
    b != specialBits Config.spNan && b != specialBits Config.spPinf && b != specialBits Config.spNinf
  | _ => true

end Sys2Proof
end

