-- ==== Sys2Proof/Decode.lean ====
section
/-!
DEFINITION. Byte order, bit fields, the decoder and the encoder. The decoder is total: it reads a command code (one
byte, bits 7:4 zero), a numeric header word (two bytes) or an entry word (four bytes), lowest offset first, little-endian
(R32, R33, R35), tells the three formats of R67 apart by the number of bytes (DESIGN CHOICE, log entry 8), and rejects
anything else by name. The encoder is written from the same bit positions (R51, R56, R64).
-/

namespace Sys2Proof

/-! ### Byte order (R32, R33, R35) -/

/-- The unsigned value of bytes in buffer order, lowest offset first: the byte at the lower offset is the less
significant (R32, R33). -/
def leNat : List Byte → Nat
  | [] => 0
  | b :: bs => b.toNat + 256 * leNat bs

/-- The two bytes of a 16-bit word as the buffer holds them (R32). -/
def halfBytes (h : Half) : List Byte := [h.extractLsb' 0 8, h.extractLsb' 8 8]

/-- The four bytes of a 32-bit word as the buffer holds them (R33). -/
def wordBytes (w : Word) : List Byte :=
  [w.extractLsb' 0 8, w.extractLsb' 8 8, w.extractLsb' 16 8, w.extractLsb' 24 8]

/-! ### Fields of the entry word (R51) -/

/-- `offlen`, bits 27:0 (R51). -/
def entryOfflen (e : Word) : BitVec 28 := e.extractLsb' 0 28
/-- `tag`, bits 30:28 (R51). -/
def entryTag (e : Word) : BitVec 3 := e.extractLsb' 28 3
/-- `hasoff`, bit 31 (R51). -/
def entryHasoff (e : Word) : BitVec 1 := e.extractLsb' 31 1
/-- The entry word of three fields (R51). -/
def entryWord (tag : BitVec 3) (hasoff : BitVec 1) (offlen : BitVec 28) : Word := hasoff ++ tag ++ offlen

/-! ### Fields of the numeric header word (R55, R56, R59) -/

/-- The variant code, bits 15:14 (R54, R55). -/
def headerVariant (h : Half) : BitVec 2 := h.extractLsb' 14 2
/-- The bits below the variant code, bits 13:0 (R59, R63). -/
def headerRest (h : Half) : BitVec 14 := h.extractLsb' 0 14
/-- `sign` of a Short header, bit 13; 1 is negative (R56, G4). -/
def headerSign (h : Half) : BitVec 1 := h.extractLsb' 13 1
/-- `dscale` of a Short header, bits 12:7 (R56). -/
def headerDscale (h : Half) : BitVec 6 := h.extractLsb' 7 6
/-- `weight` of a Short header, bits 6:0, two's complement (R56, R57). -/
def headerWeight (h : Half) : BitVec 7 := h.extractLsb' 0 7
/-- A header word from its variant and the 14 bits below it (R55). -/
def headerWord (variant : BitVec 2) (rest : BitVec 14) : Half := variant ++ rest
/-- A Short header word (R56). -/
def shortHeaderWord (sign : BitVec 1) (dscale : BitVec 6) (weight : BitVec 7) : Half :=
  headerWord Config.ntShort (sign ++ dscale ++ weight)

/-! ### The decoder -/

/-- The row of a command code (R64, R66). -/
def decodeCommand (op : OpCode) : Instr :=
  if op = Config.opEofflen then .eofflen
  else if op = Config.opEhasoff then .ehasoff
  else if op = Config.opEtype then .etype
  else if op = Config.opEdec then .edec
  else if op = Config.opEload then .eload
  else if op = Config.opNumdec then .numdec
  else if op = Config.opNumfdec then .numfdec
  else if op = 0 then .reservedZero
  else .reservedHigh (op.extractLsb' 0 3)

/-- The row of an entry word (R52, R53); every 32-bit word has exactly one (R67). -/
def decodeEntry (e : Word) : Instr :=
  if entryTag e = Config.tagString then .entryString (entryHasoff e) (entryOfflen e)
  else if entryTag e = Config.tagNumeric then .entryNumeric (entryHasoff e) (entryOfflen e)
  else if entryTag e = Config.tagBoolFalse then .entryBoolFalse (entryHasoff e) (entryOfflen e)
  else if entryTag e = Config.tagBoolTrue then .entryBoolTrue (entryHasoff e) (entryOfflen e)
  else if entryTag e = Config.tagNull then .entryNull (entryHasoff e) (entryOfflen e)
  else if entryTag e = Config.tagContainer then .entryContainer (entryHasoff e) (entryOfflen e)
  else if entryTag e = Config.tagUnused6 then .entryReserved6 (entryHasoff e) (entryOfflen e)
  else .entryReserved7 (entryHasoff e) (entryOfflen e)

/-- The row of a numeric header word (R55, R59); the three special words go before `NUM.SPECIAL_BAD` because the
larger mask wins (R67). -/
def decodeHeader (h : Half) : Instr :=
  if headerVariant h = Config.ntLongPos then .numLongPos (headerRest h)
  else if headerVariant h = Config.ntLongNeg then .numLongNeg (headerRest h)
  else if headerVariant h = Config.ntShort then .numShort (headerSign h) (headerDscale h) (headerWeight h)
  else if h = Config.spNan then .numNan
  else if h = Config.spPinf then .numPinf
  else if h = Config.spNinf then .numNinf
  else .numSpecialBad (headerRest h)

/-- Why bytes are no row of the table. -/
inductive DecodeError where
  /-- One byte whose bits 7:4 are not zero: a command code has 4 bits (R64). -/
  | commandTooWide (b : Byte)
  /-- Neither one byte (a command code), two (a header word) nor four (an entry word). -/
  | badLength (n : Nat)
  deriving DecidableEq, Repr

/-- The row of a byte string, lowest offset first. -/
def decodeBytes : List Byte → Except DecodeError Instr
  | [b] => if b.toNat < 16 then .ok (decodeCommand (BitVec.ofNat 4 b.toNat)) else .error (.commandTooWide b)
  | [b0, b1] => .ok (decodeHeader (BitVec.ofNat 16 (leNat [b0, b1])))
  | [b0, b1, b2, b3] => .ok (decodeEntry (BitVec.ofNat 32 (leNat [b0, b1, b2, b3])))
  | bs => .error (.badLength bs.length)

/-! ### The encoder -/

/-- A word of one of the three formats of R67. -/
inductive Encoded where
  /-- Format `CMD4`. -/
  | command (op : OpCode)
  /-- Format `NUMHDR16`. -/
  | header (h : Half)
  /-- Format `ENTRY32`. -/
  | entry (e : Word)
  deriving DecidableEq, Repr

/-- The word of a row (R51, R52, R55, R56, R59, R64, R66). -/
def encode : Instr → Encoded
  | .eofflen => .command Config.opEofflen
  | .ehasoff => .command Config.opEhasoff
  | .etype => .command Config.opEtype
  | .edec => .command Config.opEdec
  | .eload => .command Config.opEload
  | .numdec => .command Config.opNumdec
  | .numfdec => .command Config.opNumfdec
  | .reservedZero => .command 0
  | .reservedHigh low => .command ((1 : BitVec 1) ++ low)
  | .entryString h o => .entry (entryWord Config.tagString h o)
  | .entryNumeric h o => .entry (entryWord Config.tagNumeric h o)
  | .entryBoolFalse h o => .entry (entryWord Config.tagBoolFalse h o)
  | .entryBoolTrue h o => .entry (entryWord Config.tagBoolTrue h o)
  | .entryNull h o => .entry (entryWord Config.tagNull h o)
  | .entryContainer h o => .entry (entryWord Config.tagContainer h o)
  | .entryReserved6 h o => .entry (entryWord Config.tagUnused6 h o)
  | .entryReserved7 h o => .entry (entryWord Config.tagUnused7 h o)
  | .numLongPos x => .header (headerWord Config.ntLongPos x)
  | .numLongNeg x => .header (headerWord Config.ntLongNeg x)
  | .numShort s d w => .header (shortHeaderWord s d w)
  | .numNan => .header Config.spNan
  | .numPinf => .header Config.spPinf
  | .numNinf => .header Config.spNinf
  | .numSpecialBad b => .header (headerWord Config.ntSpecial b)

/-- The bytes of a word, lowest offset first; a command code stands in the low bits of one byte. -/
def encodedBytes : Encoded → List Byte
  | .command op => [op.setWidth 8]
  | .header h => halfBytes h
  | .entry e => wordBytes e

/-- The unsigned value of a word, bit 0 least significant, as the table numbers its bits. -/
def encodedNat : Encoded → Nat
  | .command op => op.toNat
  | .header h => h.toNat
  | .entry e => e.toNat

/-- The bytes of a row's word. -/
def encodeBytes (i : Instr) : List Byte := encodedBytes (encode i)

/-! ### The table's rows (R67) -/

/-- The format of a row (R67). -/
inductive Format where
  /-- A command code, 4 bits. -/
  | cmd4
  /-- A numeric header word, 16 bits. -/
  | numhdr16
  /-- An entry word, 32 bits. -/
  | entry32
  deriving DecidableEq, Repr

/-- What the table says of a row: its format, and the fixed bits `lo + width - 1 .. lo` with their value. -/
structure TableRow where
  /-- The format. -/
  format : Format
  /-- The lowest fixed bit. -/
  lo : Nat
  /-- How many bits are fixed. -/
  width : Nat
  /-- Their value. -/
  value : Nat
  deriving DecidableEq, Repr

/-- The row of the table a constructor stands for (spec/opcode_table.json). -/
def tableRow : Instr → TableRow
  | .eofflen => ⟨.cmd4, 0, 4, 1⟩
  | .ehasoff => ⟨.cmd4, 0, 4, 2⟩
  | .etype => ⟨.cmd4, 0, 4, 3⟩
  | .edec => ⟨.cmd4, 0, 4, 4⟩
  | .eload => ⟨.cmd4, 0, 4, 5⟩
  | .numdec => ⟨.cmd4, 0, 4, 6⟩
  | .numfdec => ⟨.cmd4, 0, 4, 7⟩
  | .reservedZero => ⟨.cmd4, 0, 4, 0⟩
  | .reservedHigh _ => ⟨.cmd4, 3, 1, 1⟩
  | .entryString _ _ => ⟨.entry32, 28, 3, 0⟩
  | .entryNumeric _ _ => ⟨.entry32, 28, 3, 1⟩
  | .entryBoolFalse _ _ => ⟨.entry32, 28, 3, 2⟩
  | .entryBoolTrue _ _ => ⟨.entry32, 28, 3, 3⟩
  | .entryNull _ _ => ⟨.entry32, 28, 3, 4⟩
  | .entryContainer _ _ => ⟨.entry32, 28, 3, 5⟩
  | .entryReserved6 _ _ => ⟨.entry32, 28, 3, 6⟩
  | .entryReserved7 _ _ => ⟨.entry32, 28, 3, 7⟩
  | .numLongPos _ => ⟨.numhdr16, 14, 2, 0⟩
  | .numLongNeg _ => ⟨.numhdr16, 14, 2, 1⟩
  | .numShort _ _ _ => ⟨.numhdr16, 14, 2, 2⟩
  | .numNan => ⟨.numhdr16, 0, 16, 0xC000⟩
  | .numPinf => ⟨.numhdr16, 0, 16, 0xD000⟩
  | .numNinf => ⟨.numhdr16, 0, 16, 0xF000⟩
  | .numSpecialBad _ => ⟨.numhdr16, 14, 2, 3⟩

/-- The word `w` has a row's fixed bits (R67, `(word & mask) == match`). -/
def matchesRow (w : Nat) (r : TableRow) : Bool := w / 2 ^ r.lo % 2 ^ r.width == r.value

/-! ### The table's numbering -/

/-- The bytes of a word `w` of `nbits` bits numbered as the table numbers them: bit 0 is bit 0 of the first byte. -/
def natBytes : Nat → Nat → List Byte
  | 0, _ => []
  | n + 1, w => BitVec.ofNat 8 w :: natBytes n (w / 256)

/-- The instruction the decoder reads from a word of `nbits` bits, numbered as the opcode table numbers them. A command
code has 4 bits and fills one byte. -/
def decodeTableWord (nbits w : Nat) : Option Instr :=
  match decodeBytes (natBytes ((nbits + 7) / 8) w) with
  | .ok i => some i
  | .error _ => none

end Sys2Proof
end

