-- ==== Sys2Proof/Machine/State.lean ====
section
/-!
DEFINITION. The state of JSONB-NDEC as plain data: the interface registers of R10, the bound buffer (R30), and the host
as the list of actions it still has to make (R5, R191). The state after reset, and the reasons a step can stop.
-/

namespace Sys2Proof.Machine

/-! ### STATUS (R13) -/

/-- `STATUS.err` (R150). Codes 6 and 7 are unassigned and never produced (U14), so they have no constructor
(log entry 18). -/
inductive ErrCode where
  /-- 0: every successful command. -/
  | none
  /-- 1: a read exceeds the buffer (R151). -/
  | outOfBounds
  /-- 2: header bits match no known pattern (R152). -/
  | malformedHeader
  /-- 3: Long numeric (R153). -/
  | unsupportedFeature
  /-- 4: kept in the numbering, never raised (R154). -/
  | invalidInputType
  /-- 5: from reset until the first command completes (R155). -/
  | notYetParsed
  deriving DecidableEq, Repr

/-- `STATUS.sub` (R156). Codes 5 to 7 are unassigned and never produced (U14; log entry 18). -/
inductive SubCause where
  /-- 0: none, also with OutOfBounds and NotYetParsed. -/
  | none
  /-- 1: `ENTRY_TAG`. -/
  | entryTag
  /-- 2: `NUM_SPECIAL`. -/
  | numSpecial
  /-- 3: `NUM_RANGE`. -/
  | numRange
  /-- 4: `NUM_LONG`. -/
  | numLong
  deriving DecidableEq, Repr

/-- The fields of `STATUS` (R13). Bits 31:11 read 0 and are not stored; `statusWord` gives the 32-bit register. -/
structure Status where
  /-- Bit 0. -/
  done : Bool
  /-- Bits 3:1. -/
  err : ErrCode
  /-- Bits 6:4. -/
  sub : SubCause
  /-- Bits 10:7: the code of the last command issued. -/
  lastop : OpCode
  deriving DecidableEq, Repr

/-! ### Result registers (R14, R15) -/

/-- `N_KIND` (R15). Codes 6 and 7 are never produced (U14; log entry 18). -/
inductive Kind where
  /-- 0 NONE: no numeric result. -/
  | none
  /-- 1 INT. -/
  | int
  /-- 2 FLOAT. -/
  | float
  /-- 3 NAN. -/
  | nan
  /-- 4 PINF. -/
  | pinf
  /-- 5 NINF. -/
  | ninf
  deriving DecidableEq, Repr

/-- The result registers, which every command clears first (R21). -/
structure Results where
  /-- `E_OFFLEN`, register 8. -/
  eOfflen : BitVec 28
  /-- `E_HASOFF`, register 9. -/
  eHasoff : BitVec 1
  /-- `E_TAG`, register 10. -/
  eTag : BitVec 3
  /-- `E_TYPE`, register 11. -/
  eType : BitVec 3
  /-- `E_WORD`, register 12. -/
  eWord : Word
  /-- `N_KIND`, register 16. -/
  nKind : Kind
  /-- `N_NEG`, register 17. -/
  nNeg : BitVec 1
  /-- `N_WEIGHT`, register 18, two's complement. -/
  nWeight : BitVec 7
  /-- `N_DSCALE`, register 19. -/
  nDscale : BitVec 6
  /-- `N_NDIGITS`, register 20. -/
  nNdigits : BitVec 32
  /-- `N_SHIFT`, register 21, two's complement. -/
  nShift : BitVec 33
  /-- `N_COEF`, register 22, an unbounded natural number. -/
  nCoef : Nat
  /-- `N_IVAL`, register 23, two's complement. -/
  nIval : BitVec 855
  /-- `N_FVAL`, register 24, a binary64 bit pattern. -/
  nFval : BitVec 64
  /-- `N_LENWORD`, register 25. -/
  nLenword : BitVec 32
  /-- `N_HDR`, register 26. -/
  nHdr : Half
  deriving DecidableEq, Repr

/-- All result registers 0 (R20, R21); `N_KIND` 0 is NONE. -/
def Results.cleared : Results where
  eOfflen := 0
  eHasoff := 0
  eTag := 0
  eType := 0
  eWord := 0
  nKind := .none
  nNeg := 0
  nWeight := 0
  nDscale := 0
  nNdigits := 0
  nShift := 0
  nCoef := 0
  nIval := 0
  nFval := 0
  nLenword := 0
  nHdr := 0

/-! ### Errors of a command (R159) -/

/-- What a command can `raise` in this block: the pairs of R156 that a command produces. They are reported in
`STATUS`; none of them stops the machine. -/
inductive Raise where
  /-- OutOfBounds(0) (R151). -/
  | outOfBounds
  /-- MalformedHeader(ENTRY_TAG) (R152). -/
  | entryTag
  /-- MalformedHeader(NUM_SPECIAL) (R152). -/
  | numSpecial
  /-- MalformedHeader(NUM_RANGE) (R152). -/
  | numRange
  /-- UnsupportedFeature(NUM_LONG) (R153). -/
  | numLong
  deriving DecidableEq, Repr

/-! ### The buffer and the host -/

/-- The bytes of the bound buffer as (offset, byte) pairs, offsets strictly rising, no byte equal to
`Config.unlistedByte` (`Memory.wf`). -/
abbrev Memory := List Host.Cell

/-- One action of the host (R5, R146, R191). Register numbers are those of R10; a value is any natural number and is
truncated to the register's width (R141; log entry 16). -/
inductive HostAction where
  /-- `WR <reg>, <value>` (R65, R141); a write of register 0 (`CMD`) issues a command (R12). -/
  | writeReg (reg : Nat) (value : Nat)
  /-- `RD <reg>` (R65, R142). -/
  | readReg (reg : Nat)
  /-- The host changes one byte of its buffer between commands (R41). -/
  | writeBuffer (offset : Nat) (value : Byte)
  /-- The host binds another buffer with these bytes from offset 0 (R41, R146); `BUFLEN` is written apart. -/
  | bindBuffer (bytes : List Byte)
  /-- The reset event (R180). -/
  | reset
  deriving DecidableEq, Repr

/-- The whole state. -/
structure State where
  /-- `BUFLEN`, register 2 (R11). -/
  buflen : Word
  /-- `POS`, register 3 (R11). -/
  pos : Word
  /-- `LEN`, register 4 (R11). -/
  len : Word
  /-- `EWORD`, register 5 (R11). -/
  eword : Word
  /-- `STATUS`, register 1 (R13). -/
  status : Status
  /-- The result registers (R14, R15). -/
  results : Results
  /-- The bytes of the bound buffer (R30; log entries 4, 5). -/
  mem : Memory
  /-- The model's own: the host's actions still to come, the next first (R191; log entry 1). -/
  pending : List HostAction
  /-- The model's own: what the host's reads have returned, oldest first (R191; log entry 3). -/
  seen : List Nat
  deriving DecidableEq, Repr

/-- `STATUS` after reset: done 0, err NotYetParsed, sub 0, lastop 0 (R20). -/
def Status.afterReset : Status := ⟨false, .notYetParsed, .none, 0⟩

/-- The machine right after reset (R20, R180). No host action is pending (log entry 1), no read has been made
(log entry 3), and no byte of the buffer is listed (log entry 5). -/
def State.reset : State where
  buflen := 0
  pos := 0
  len := 0
  eword := 0
  status := Status.afterReset
  results := Results.cleared
  mem := []
  pending := []
  seen := []

/-! ### Why a step can stop -/

/-- The block has no event that stops it: every error of the spec is reported in `STATUS` and the machine goes on
(R159, R161). So there is no fault, and the type has no constructor (log entry 22). -/
inductive Fault : Type
  deriving DecidableEq, Repr

/-- Why a step has no next state. -/
inductive Refusal where
  /-- Raised by `exec` alone for an instruction that has no meaning yet. Safe. -/
  | notModelled (mnemonic : String)
  /-- Raised by a command with the reserved code `op` (0, 8 to 15), which has no meaning and which a model refuses
  (R66, R143, U6; log entry 9). Safe. -/
  | reservedCommand (op : OpCode)
  deriving DecidableEq, Repr

end Sys2Proof.Machine
end

