-- ==== Sys2Proof/Machine/Flags.lean ====
section
/-!
DEFINITION. The `STATUS` word and its codes (R13, R150, R156), the codes of `N_KIND` (R15), and the kind of a Short
numeric (R109).
-/

namespace Sys2Proof.Machine

/-- The code in `STATUS.err` (R150). -/
def errCode : ErrCode → BitVec 3
  | .none => 0
  | .outOfBounds => 1
  | .malformedHeader => 2
  | .unsupportedFeature => 3
  | .invalidInputType => 4
  | .notYetParsed => 5

/-- The code in `STATUS.sub` (R156). -/
def subCode : SubCause → BitVec 3
  | .none => 0
  | .entryTag => 1
  | .numSpecial => 2
  | .numRange => 3
  | .numLong => 4

/-- The code in `N_KIND` (R15). -/
def kindCode : Kind → BitVec 3
  | .none => 0
  | .int => 1
  | .float => 2
  | .nan => 3
  | .pinf => 4
  | .ninf => 5

/-- The 32-bit `STATUS` register: reserved 31:11, lastop 10:7, sub 6:4, err 3:1, done 0 (R13). -/
def statusWord (st : Status) : Word :=
  (0 : BitVec 21) ++ st.lastop ++ subCode st.sub ++ errCode st.err ++ BitVec.ofBool st.done

/-- The `err` a `raise` reports (R150 to R153). -/
def raiseErr : Raise → ErrCode
  | .outOfBounds => .outOfBounds
  | .entryTag => .malformedHeader
  | .numSpecial => .malformedHeader
  | .numRange => .malformedHeader
  | .numLong => .unsupportedFeature

/-- The `sub` a `raise` reports (R151 to R153, R156). -/
def raiseSub : Raise → SubCause
  | .outOfBounds => .none
  | .entryTag => .entryTag
  | .numSpecial => .numSpecial
  | .numRange => .numRange
  | .numLong => .numLong

/-- `STATUS` after the command `op` succeeded (R140 steps 2, 4, 5). -/
def okStatus (op : OpCode) : Status := ⟨true, .none, .none, op⟩

/-- `STATUS` after the command `op` raised `e` (R140 steps 2, 4, 5; R159). -/
def errStatus (op : OpCode) (e : Raise) : Status := ⟨true, raiseErr e, raiseSub e, op⟩

/-- The kind of a Short numeric: INT if `shift <= 0`, FLOAT if `shift > 0`, by `shift` alone (R109). -/
def shortKind (shift : Int) : Kind := if shift ≤ 0 then .int else .float

end Sys2Proof.Machine
end

