-- ==== Sys2Proof/Machine/Ops.lean ====
section
/-!
DEFINITION. The shared operations: the buffer and its reads (R30 to R33), completing a command and taking an error
(R140, R159), the host's register writes and reads (R22, R141, R142), its changes of the buffer (R41), and the reset
event (R180). There is no return operation: R161 says there is none and nothing to restore.
-/

namespace Sys2Proof.Machine

/-! ### The buffer -/

/-- The byte at an offset; an unlisted one is `Config.unlistedByte` (log entry 5). -/
def Memory.read : Memory → Nat → Byte
  | [], _ => Config.unlistedByte
  | (k, v) :: m, a => if k = a then v else Memory.read m a

/-- Put a cell in front, unless its byte is the one an unlisted offset reads as. -/
def Memory.consCell (a : Nat) (v : Byte) (m : Memory) : Memory :=
  if v = Config.unlistedByte then m else (a, v) :: m

/-- Set the byte at an offset, in canonical form. Only the host does this (R46). -/
def Memory.write : Memory → Nat → Byte → Memory
  | [], a, v => Memory.consCell a v []
  | (k, w) :: m, a, v =>
    if a < k then Memory.consCell a v ((k, w) :: m)
    else if a = k then Memory.consCell a v m
    else (k, w) :: Memory.write m a v

/-- Set the bytes at `a`, `a + 1`, and so on. -/
def Memory.writeBytes : Memory → Nat → List Byte → Memory
  | m, _, [] => m
  | m, a, b :: bs => Memory.writeBytes (Memory.write m a b) (a + 1) bs

/-- Every offset is at least `lo` and strictly rising, and no byte is the one an unlisted offset reads as. -/
def Memory.wfFrom : Nat → Memory → Bool
  | _, [] => true
  | lo, (k, v) :: m => decide (lo ≤ k) && (v != Config.unlistedByte) && Memory.wfFrom (k + 1) m

/-- The canonical form of the buffer's bytes. -/
def Memory.wf (m : Memory) : Bool := Memory.wfFrom 0 m

/-- The `n` bytes at `a`, lowest offset first. -/
def Memory.bytesAt (m : Memory) (a : Nat) : Nat → List Byte
  | 0 => []
  | n + 1 => Memory.read m a :: Memory.bytesAt m (a + 1) n

/-! ### Reads of the block (R31 to R33) -/

/-- `MemRead(addr, n)`: OutOfBounds if `addr + n > BUFLEN` on unbounded integers, else the bytes (R31). -/
def memRead (s : State) (addr n : Nat) : Except Raise (List Byte) :=
  if addr + n > s.buflen.toNat then .error .outOfBounds else .ok (Memory.bytesAt s.mem addr n)

/-- `readU16LE(pos)` (R32). -/
def readU16LE (s : State) (pos : Nat) : Except Raise Half :=
  match memRead s pos 2 with
  | .error e => .error e
  | .ok bs => .ok (BitVec.ofNat 16 (leNat bs))

/-- `readU32LE(pos)` (R33). -/
def readU32LE (s : State) (pos : Nat) : Except Raise Word :=
  match memRead s pos 4 with
  | .error e => .error e
  | .ok bs => .ok (BitVec.ofNat 32 (leNat bs))

/-! ### Ending a command (R140, R159) -/

/-- The command `op` succeeded: the result registers hold what it wrote over the cleared ones (R21, R140 steps 1, 2,
4, 5). -/
def completeCommand (op : OpCode) (r : Results) (s : State) : State :=
  { s with results := r, status := okStatus op }

/-- Error entry: the command `op` raised `e`; all result registers are 0, `STATUS` reports the error, nothing else
changes (R21, R140, R159). -/
def raiseError (op : OpCode) (e : Raise) (s : State) : State :=
  { s with results := Results.cleared, status := errStatus op e }

/-- `issue(op)` with the outcome of `Exec(op)` in hand (R140). -/
def issueCommand (op : OpCode) (outcome : Except Raise Results) (s : State) : State :=
  match outcome with
  | .ok r => completeCommand op r s
  | .error e => raiseError op e s

/-! ### The host's registers (R10, R22, R141, R142) -/

/-- What a host read of register number `reg` returns, as its bits read as an unsigned number; `CMD` and unassigned
numbers read 0 (R12, R22, R142; log entry 25). -/
def regValue (s : State) (reg : Nat) : Nat :=
  match reg with
  | 1 => (statusWord s.status).toNat
  | 2 => s.buflen.toNat
  | 3 => s.pos.toNat
  | 4 => s.len.toNat
  | 5 => s.eword.toNat
  | 8 => s.results.eOfflen.toNat
  | 9 => s.results.eHasoff.toNat
  | 10 => s.results.eTag.toNat
  | 11 => s.results.eType.toNat
  | 12 => s.results.eWord.toNat
  | 16 => (kindCode s.results.nKind).toNat
  | 17 => s.results.nNeg.toNat
  | 18 => s.results.nWeight.toNat
  | 19 => s.results.nDscale.toNat
  | 20 => s.results.nNdigits.toNat
  | 21 => s.results.nShift.toNat
  | 22 => s.results.nCoef
  | 23 => s.results.nIval.toNat
  | 24 => s.results.nFval.toNat
  | 25 => s.results.nLenword.toNat
  | 26 => s.results.nHdr.toNat
  | _ => 0

/-- A host write of a register other than `CMD`: an operand register stores the value truncated (R141), a read-only or
unassigned number ignores it (R22). -/
def writeOperand (reg value : Nat) (s : State) : State :=
  if reg = Config.regBuflen then { s with buflen := BitVec.ofNat 32 value }
  else if reg = Config.regPos then { s with pos := BitVec.ofNat 32 value }
  else if reg = Config.regLen then { s with len := BitVec.ofNat 32 value }
  else if reg = Config.regEword then { s with eword := BitVec.ofNat 32 value }
  else s

/-- A host read: the value is returned to the host, nothing else changes (R142). -/
def hostRead (reg : Nat) (s : State) : State := { s with seen := s.seen ++ [regValue s reg] }

/-- The reset event: every register at its reset value, the buffer untouched (R180, R181); what the host has seen and
has still to do is the host's own (log entry 17). -/
def resetEvent (s : State) : State :=
  { State.reset with mem := s.mem, pending := s.pending, seen := s.seen }

/-! ### The host's next action -/

/-- What the next host action does: it is over, or it issues a command. -/
inductive HostMove where
  /-- The action is done and leaves this state. -/
  | done (s : State)
  /-- A write of `CMD` issues the command `op` in this state (R12, R140). -/
  | issue (op : OpCode) (s : State)
  deriving DecidableEq, Repr

/-- The effect of one host action. A value written to `CMD` is truncated to its 4 bits (R12, R141; log entry 16). -/
def hostAct (a : HostAction) (s : State) : HostMove :=
  match a with
  | .writeReg reg value =>
    if reg = Config.regCmd then .issue (BitVec.ofNat 4 value) s else .done (writeOperand reg value s)
  | .readReg reg => .done (hostRead reg s)
  | .writeBuffer offset value => .done { s with mem := Memory.write s.mem offset value }
  | .bindBuffer bytes => .done { s with mem := Memory.writeBytes [] 0 bytes }
  | .reset => .done (resetEvent s)

/-- The host makes its next action; with none left nothing happens (R191; log entry 2). -/
def takeAction (s : State) : HostMove :=
  match s.pending with
  | [] => .done s
  | a :: rest => hostAct a { s with pending := rest }

end Sys2Proof.Machine
end

