-- ==== Sys2Proof/Machine/Operands.lean ====
section
/-!
DEFINITION. The operand forms and the arithmetic the commands share: what each Entry Codec command takes from an entry
word (R80 to R84), the numeric field's framing (R38, R60), and the three branches of the Numeric Decoder (R101 to
R120). All of it is pure: an outcome is the result registers a command writes or the error it raises.
-/

namespace Sys2Proof.Machine

/-! ### The Entry Codec -/

/-- The variant of a tag, numbered as `E_TYPE` numbers it; an unused tag is MalformedHeader(ENTRY_TAG) (R52, R53, R82,
R85 to R92). -/
def typeOfTag (t : BitVec 3) : Except Raise (BitVec 3) :=
  if t = Config.tagString then .ok Config.typeString
  else if t = Config.tagNumeric then .ok Config.typeNumeric
  else if t = Config.tagBoolFalse then .ok Config.typeBoolFalse
  else if t = Config.tagBoolTrue then .ok Config.typeBoolTrue
  else if t = Config.tagNull then .ok Config.typeNull
  else if t = Config.tagContainer then .ok Config.typeContainer
  else .error .entryTag

/-- What `EOFFLEN` writes (R80). -/
def offlenOutcome (e : Word) : Except Raise Results :=
  .ok { Results.cleared with eWord := e, eOfflen := entryOfflen e }

/-- What `EHASOFF` writes (R81). -/
def hasoffOutcome (e : Word) : Except Raise Results :=
  .ok { Results.cleared with eWord := e, eHasoff := entryHasoff e }

/-- What `ETYPE` writes or raises (R82). -/
def typeOutcome (e : Word) : Except Raise Results :=
  match typeOfTag (entryTag e) with
  | .error r => .error r
  | .ok t => .ok { Results.cleared with eWord := e, eTag := entryTag e, eType := t }

/-- The result registers of a whole entry word of variant `t` (R83). -/
def entryResults (e : Word) (t : BitVec 3) : Results :=
  { Results.cleared with
    eWord := e
    eOfflen := entryOfflen e
    eHasoff := entryHasoff e
    eTag := entryTag e
    eType := t }

/-- What `EDEC` writes or raises on an entry word; `ELOAD` does the same on the word it read (R83, R84). -/
def entryOutcome (e : Word) : Except Raise Results :=
  match typeOfTag (entryTag e) with
  | .error r => .error r
  | .ok t => .ok (entryResults e t)

/-- What `ELOAD` does: the read first, then `EDEC` on the word (R84). -/
def loadOutcome (s : State) : Except Raise Results :=
  match readU32LE s s.pos.toNat with
  | .error r => .error r
  | .ok e => entryOutcome e

/-! ### The Short branch (R105 to R114) -/

/-- Accumulation: `k` digits from `cur` on, each `acc * 10000 + digit`, exact; the first digit that does not fit ends it
with OutOfBounds (R107). No digit is range-checked (R113). -/
def accumulate (s : State) : (k cur acc : Nat) → Except Raise Nat
  | 0, _, acc => .ok acc
  | k + 1, cur, acc =>
    match readU16LE s cur with
    | .error r => .error r
    | .ok d => accumulate s k (cur + 2) (acc * 10000 + d.toNat)

/-- `shift = ndigits - weight - 1` (R108). -/
def shortShift (ndigits : Nat) (weight : BitVec 7) : Int := (ndigits : Int) - weight.toInt - 1

/-- The integer view `(-1)^neg * acc * 10000^(-shift)`, for `shift <= 0` (R110, R111). -/
def intView (neg : BitVec 1) (acc : Nat) (shift : Int) : Int :=
  if neg = 1 then -((acc * 10000 ^ (-shift).toNat : Nat) : Int) else ((acc * 10000 ^ (-shift).toNat : Nat) : Int)

/-- The floating view `(neg << 63) | rne64(acc / 10000^shift)`, for `shift > 0` (R110, R112). -/
def floatView (neg : BitVec 1) (acc : Nat) (shift : Int) : BitVec 64 :=
  neg ++ BitVec.ofNat 63 (rne64 acc (10000 ^ shift.toNat))

/-- The result registers of a Short numeric with header `h`, digit count `ndigits` and accumulated `acc` (R105 to R114);
`N_LENWORD` is `NUMFDEC`'s to write. -/
def shortResults (h : Half) (ndigits acc : Nat) : Results :=
  let shift := shortShift ndigits (headerWeight h)
  { Results.cleared with
    nKind := shortKind shift
    nHdr := h
    nNeg := headerSign h
    nWeight := headerWeight h
    nDscale := headerDscale h
    nNdigits := BitVec.ofNat 32 ndigits
    nShift := BitVec.ofInt 33 shift
    nCoef := acc
    nIval := if shift ≤ 0 then BitVec.ofInt 855 (intView (headerSign h) acc shift) else 0
    nFval := if shift ≤ 0 then 0 else floatView (headerSign h) acc shift }

/-- The Short branch over the range of `n` bytes at `hp`: an odd remainder is MalformedHeader(NUM_RANGE) before any
digit is read (R106), then the digits (R107). -/
def shortBranch (s : State) (hp n : Nat) (h : Half) : Except Raise Results :=
  if (n - 2) % 2 = 1 then .error .numRange
  else
    match accumulate s ((n - 2) / 2) (hp + 2) 0 with
    | .error r => .error r
    | .ok acc => .ok (shortResults h ((n - 2) / 2) acc)

/-! ### The Special branch (R115 to R118) and the Long branch (R119, R120) -/

/-- The result registers of a special value (R115 to R117). -/
def specialResults (k : Kind) (h : Half) (f : BitVec 64) : Results :=
  { Results.cleared with nKind := k, nHdr := h, nFval := f }

/-- The Special branch: three words of the table, any other is MalformedHeader(NUM_SPECIAL); nothing more is read (R59,
R115 to R118). -/
def specialBranch (h : Half) : Except Raise Results :=
  if h = Config.spNan then .ok (specialResults .nan h Config.fvalNan)
  else if h = Config.spPinf then .ok (specialResults .pinf h Config.fvalPinf)
  else if h = Config.spNinf then .ok (specialResults .ninf h Config.fvalNinf)
  else .error .numSpecial

/-- The Long branch: always UnsupportedFeature(NUM_LONG); nothing more is read (R63, R119, R120). -/
def longBranch : Except Raise Results := .error .numLong

/-! ### The state machine (R101 to R104) -/

/-- `Start`, up to the header word: the range pre-check (R102), then the header fetch (R103). -/
def fetchHeader (s : State) (hp n : Nat) : Except Raise Half :=
  if n < 2 then .error .numRange else readU16LE s hp

/-- Dispatch on the 2-bit variant (R104). -/
def headerBranch (s : State) (hp n : Nat) (h : Half) : Except Raise Results :=
  if headerVariant h = Config.ntShort then shortBranch s hp n h
  else if headerVariant h = Config.ntSpecial then specialBranch h
  else longBranch

/-- `Core(hp, n)` (R101). -/
def numCore (s : State) (hp n : Nat) : Except Raise Results :=
  match fetchHeader s hp n with
  | .error r => .error r
  | .ok h => headerBranch s hp n h

/-- What `NUMDEC` writes or raises (R100). -/
def numdecOutcome (s : State) : Except Raise Results := numCore s s.pos.toNat s.len.toNat

/-- What `NUMDEC` does when its header word is of a given row, whose branch is `branch` (R101; log entry 6). -/
def numRowOutcome (s : State) (branch : Except Raise Results) : Except Raise Results :=
  match fetchHeader s s.pos.toNat s.len.toNat with
  | .error r => .error r
  | .ok _ => branch

/-! ### The numeric field (R38, R60, R121) -/

/-- The bytes of padding from `pos` to the next multiple of 4 (R38, R60). -/
def fieldPad (pos : Nat) : Nat := (4 - pos % 4) % 4

/-- What `NUMFDEC` writes or raises (R121). -/
def numfdecOutcome (s : State) : Except Raise Results :=
  let pad := fieldPad s.pos.toNat
  if s.len.toNat < pad + 6 then .error .numRange
  else
    match readU32LE s (s.pos.toNat + pad) with
    | .error r => .error r
    | .ok lw =>
      match numCore s (s.pos.toNat + pad + 4) (s.len.toNat - pad - 4) with
      | .error r => .error r
      | .ok r => .ok { r with nLenword := lw }

end Sys2Proof.Machine
end

