-- ==== Sys2Proof/Machine/EntryCodec.lean ====
section
/-!
DEFINITION. The five Entry Codec commands (R80 to R84).
-/

namespace Sys2Proof.Machine

/-- `EOFFLEN` (R80). -/
def execEofflen (s : State) : Host.Outcome State Fault Refusal :=
  .next (issueCommand Config.opEofflen (offlenOutcome s.eword) s)

/-- `EHASOFF` (R81). -/
def execEhasoff (s : State) : Host.Outcome State Fault Refusal :=
  .next (issueCommand Config.opEhasoff (hasoffOutcome s.eword) s)

/-- `ETYPE` (R82). -/
def execEtype (s : State) : Host.Outcome State Fault Refusal :=
  .next (issueCommand Config.opEtype (typeOutcome s.eword) s)

/-- `EDEC` (R83). -/
def execEdec (s : State) : Host.Outcome State Fault Refusal :=
  .next (issueCommand Config.opEdec (entryOutcome s.eword) s)

/-- `ELOAD` (R84). -/
def execEload (s : State) : Host.Outcome State Fault Refusal :=
  .next (issueCommand Config.opEload (loadOutcome s) s)

end Sys2Proof.Machine
end

