-- ==== Sys2Proof/Machine/EntryWords.lean ====
section
/-!
DEFINITION. The eight entry word rows (R85 to R92), each run as the word `EDEC` is decoding (log entry 6): a legal tag
reports its variant and the word's fields, an unused tag raises MalformedHeader(ENTRY_TAG). `EWORD`, from which `EDEC`
takes the word, is not looked at again and not changed.
-/

namespace Sys2Proof.Machine

/-- `EDEC` on an entry word of a legal tag: success with its variant (R83, R85 to R90). -/
def runLegalEntry (tag : BitVec 3) (type : BitVec 3) (hasoff : BitVec 1) (offlen : BitVec 28) (s : State) :
    Host.Outcome State Fault Refusal :=
  .next (issueCommand Config.opEdec (.ok (entryResults (entryWord tag hasoff offlen) type)) s)

/-- `EDEC` on an entry word of an unused tag: the error, no result (R53, R83, R91, R92). -/
def runUnusedEntry (s : State) : Host.Outcome State Fault Refusal :=
  .next (issueCommand Config.opEdec (.error .entryTag) s)

/-- `ENTRY.STRING` (R85). -/
def execEntryString (hasoff : BitVec 1) (offlen : BitVec 28) (s : State) : Host.Outcome State Fault Refusal :=
  runLegalEntry Config.tagString Config.typeString hasoff offlen s

/-- `ENTRY.NUMERIC` (R86). -/
def execEntryNumeric (hasoff : BitVec 1) (offlen : BitVec 28) (s : State) : Host.Outcome State Fault Refusal :=
  runLegalEntry Config.tagNumeric Config.typeNumeric hasoff offlen s

/-- `ENTRY.BOOL_FALSE` (R87). -/
def execEntryBoolFalse (hasoff : BitVec 1) (offlen : BitVec 28) (s : State) : Host.Outcome State Fault Refusal :=
  runLegalEntry Config.tagBoolFalse Config.typeBoolFalse hasoff offlen s

/-- `ENTRY.BOOL_TRUE` (R88). -/
def execEntryBoolTrue (hasoff : BitVec 1) (offlen : BitVec 28) (s : State) : Host.Outcome State Fault Refusal :=
  runLegalEntry Config.tagBoolTrue Config.typeBoolTrue hasoff offlen s

/-- `ENTRY.NULL` (R89). -/
def execEntryNull (hasoff : BitVec 1) (offlen : BitVec 28) (s : State) : Host.Outcome State Fault Refusal :=
  runLegalEntry Config.tagNull Config.typeNull hasoff offlen s

/-- `ENTRY.CONTAINER` (R90). -/
def execEntryContainer (hasoff : BitVec 1) (offlen : BitVec 28) (s : State) : Host.Outcome State Fault Refusal :=
  runLegalEntry Config.tagContainer Config.typeContainer hasoff offlen s

/-- `ENTRY.RESERVED6` (R91): its fields play no part. -/
def execEntryReserved6 (_hasoff : BitVec 1) (_offlen : BitVec 28) (s : State) : Host.Outcome State Fault Refusal :=
  runUnusedEntry s

/-- `ENTRY.RESERVED7` (R92): its fields play no part. -/
def execEntryReserved7 (_hasoff : BitVec 1) (_offlen : BitVec 28) (s : State) : Host.Outcome State Fault Refusal :=
  runUnusedEntry s

end Sys2Proof.Machine
end

