-- ==== Sys2Proof/Machine/Numeric.lean ====
section
/-!
DEFINITION. The two Numeric Decoder commands (R100, R121).
-/

namespace Sys2Proof.Machine

/-- `NUMDEC` (R100). -/
def execNumdec (s : State) : Host.Outcome State Fault Refusal :=
  .next (issueCommand Config.opNumdec (numdecOutcome s) s)

/-- `NUMFDEC` (R121). -/
def execNumfdec (s : State) : Host.Outcome State Fault Refusal :=
  .next (issueCommand Config.opNumfdec (numfdecOutcome s) s)

end Sys2Proof.Machine
end

