-- ==== Sys2Proof/Machine/NumericWords.lean ====
section
/-!
DEFINITION. The seven numeric header word rows (R105, R115 to R120), each run as the header word `NUMDEC` has fetched at
`POS` (log entry 6): the checks of `Start` (R102, R103), then the row's branch over the range of `LEN` bytes. The bytes
at `POS` are not looked at again for the header's fields.
-/

namespace Sys2Proof.Machine

/-- `NUMDEC` whose header word is of the row with this branch (R101). -/
def runNumRow (branch : Except Raise Results) (s : State) : Host.Outcome State Fault Refusal :=
  .next (issueCommand Config.opNumdec (numRowOutcome s branch) s)

/-- `NUM.LONGPOS` (R119): bits 13:0 are not looked at. -/
def execNumLongPos (_ignored : BitVec 14) (s : State) : Host.Outcome State Fault Refusal :=
  runNumRow longBranch s

/-- `NUM.LONGNEG` (R120): bits 13:0 are not looked at. -/
def execNumLongNeg (_ignored : BitVec 14) (s : State) : Host.Outcome State Fault Refusal :=
  runNumRow longBranch s

/-- `NUM.SHORT` (R105 to R114). -/
def execNumShort (sign : BitVec 1) (dscale : BitVec 6) (weight : BitVec 7) (s : State) :
    Host.Outcome State Fault Refusal :=
  runNumRow (shortBranch s s.pos.toNat s.len.toNat (shortHeaderWord sign dscale weight)) s

/-- `NUM.NAN` (R115). -/
def execNumNan (s : State) : Host.Outcome State Fault Refusal :=
  runNumRow (.ok (specialResults .nan Config.spNan Config.fvalNan)) s

/-- `NUM.PINF` (R116). -/
def execNumPinf (s : State) : Host.Outcome State Fault Refusal :=
  runNumRow (.ok (specialResults .pinf Config.spPinf Config.fvalPinf)) s

/-- `NUM.NINF` (R117). -/
def execNumNinf (s : State) : Host.Outcome State Fault Refusal :=
  runNumRow (.ok (specialResults .ninf Config.spNinf Config.fvalNinf)) s

/-- `NUM.SPECIAL_BAD` (R118): its bits play no part. -/
def execNumSpecialBad (_special : BitVec 14) (s : State) : Host.Outcome State Fault Refusal :=
  runNumRow (.error .numSpecial) s

end Sys2Proof.Machine
end

