-- ==== Sys2Proof/Machine/Reserved.lean ====
section
/-!
DEFINITION. The reserved command codes 0 and 8 to 15: they have no meaning and a model refuses them (R66, R143, D27,
U6; log entry 9).
-/

namespace Sys2Proof.Machine

/-- `RESERVED`, `CMD` = 0 (R66, R143). -/
def execReservedZero (_s : State) : Host.Outcome State Fault Refusal :=
  .refused (.reservedCommand 0)

/-- `RESERVED`, `CMD` = 8 to 15 (R66, R143). -/
def execReservedHigh (low : BitVec 3) (_s : State) : Host.Outcome State Fault Refusal :=
  .refused (.reservedCommand ((1 : BitVec 1) ++ low))

end Sys2Proof.Machine
end

