-- ==== Sys2Proof/Machine/Dispatch.lean ====
section
/-!
DEFINITION. One arm per row of the opcode table.
-/

namespace Sys2Proof.Machine

def exec (i : Instr) (s : State) : Host.Outcome State Fault Refusal :=
  match i with
  | .eofflen => Sys2Proof.Machine.execEofflen s
  | .ehasoff => Sys2Proof.Machine.execEhasoff s
  | .etype => Sys2Proof.Machine.execEtype s
  | .edec => Sys2Proof.Machine.execEdec s
  | .eload => Sys2Proof.Machine.execEload s
  | .numdec => Sys2Proof.Machine.execNumdec s
  | .numfdec => Sys2Proof.Machine.execNumfdec s
  | .reservedZero => Sys2Proof.Machine.execReservedZero s
  | .reservedHigh low => Sys2Proof.Machine.execReservedHigh low s
  | .entryString h o => Sys2Proof.Machine.execEntryString h o s
  | .entryNumeric h o => Sys2Proof.Machine.execEntryNumeric h o s
  | .entryBoolFalse h o => Sys2Proof.Machine.execEntryBoolFalse h o s
  | .entryBoolTrue h o => Sys2Proof.Machine.execEntryBoolTrue h o s
  | .entryNull h o => Sys2Proof.Machine.execEntryNull h o s
  | .entryContainer h o => Sys2Proof.Machine.execEntryContainer h o s
  | .entryReserved6 h o => Sys2Proof.Machine.execEntryReserved6 h o s
  | .entryReserved7 h o => Sys2Proof.Machine.execEntryReserved7 h o s
  | .numLongPos x => Sys2Proof.Machine.execNumLongPos x s
  | .numLongNeg x => Sys2Proof.Machine.execNumLongNeg x s
  | .numShort sign dscale weight => Sys2Proof.Machine.execNumShort sign dscale weight s
  | .numNan => Sys2Proof.Machine.execNumNan s
  | .numPinf => Sys2Proof.Machine.execNumPinf s
  | .numNinf => Sys2Proof.Machine.execNumNinf s
  | .numSpecialBad x => Sys2Proof.Machine.execNumSpecialBad x s

end Sys2Proof.Machine
end

