-- ==== Sys2Proof/Machine/Step.lean ====
section
/-!
DEFINITION. One step: the host makes its next action (R191), and a write of `CMD` runs the command to completion inside
it (R140). `withFetchWord` places a table word where the machine takes its next one from (log entry 7).
-/

namespace Sys2Proof.Machine

/-- One step of block and host. -/
def step (s : State) : Host.Outcome State Fault Refusal :=
  match takeAction s with
  | .done t => .next t
  | .issue op t => exec (decodeCommand op) t

/-- The host's next action is a write of the command code `op` to `CMD`. -/
def State.withCommand (s : State) (op : Nat) : State :=
  { s with pending := .writeReg Config.regCmd op :: s.pending }

/-- A table word placed so that the next step runs it: a command code is what the host writes to `CMD` next; a numeric
header word stands at offset 0 of the buffer, `POS` 0, `LEN` 2 and `BUFLEN` at least 2, with `NUMDEC` issued next; an
entry word stands in `EWORD` with `EDEC` issued next (log entry 7). -/
def State.withFetchWord (s : State) (nbits w : Nat) : State :=
  if nbits ≤ 8 then s.withCommand w
  else if nbits ≤ 16 then
    { s.withCommand Config.opNumdec.toNat with
      mem := Memory.writeBytes s.mem 0 (natBytes 2 w)
      pos := 0
      len := 2
      buflen := if s.buflen.toNat < 2 then 2 else s.buflen }
  else { s.withCommand Config.opEdec.toNat with eword := BitVec.ofNat 32 w }

end Sys2Proof.Machine
end

