-- ==== Sys2Proof/Safety.lean ====
section
/-!
DEFINITION. The terms the claims are stated in: the buffer's bytes and the numbers they spell, written straight from the
spec and apart from the machine's own definitions; the two ways a command can end (R140, R159); the value of a
binary64 pattern (R112); and the invariants of a safe run.
-/

namespace Sys2Proof.Safety

open Sys2Proof.Machine

/-! ### What the buffer holds -/

/-- The byte at an offset, as a number. -/
def byteAt (s : State) (a : Nat) : Nat := (Memory.read s.mem a).toNat

/-- `b0 + 256*b1` (R32). -/
def halfAt (s : State) (a : Nat) : Nat := byteAt s a + 256 * byteAt s (a + 1)

/-- `b0 + 2^8*b1 + 2^16*b2 + 2^24*b3` (R33). -/
def wordAt (s : State) (a : Nat) : Nat :=
  byteAt s a + 2 ^ 8 * byteAt s (a + 1) + 2 ^ 16 * byteAt s (a + 2) + 2 ^ 24 * byteAt s (a + 3)

/-- Digit `i` of the packed numeric whose header stands at `hp` (R58). -/
def digitAt (s : State) (hp i : Nat) : Nat := halfAt s (hp + 2 + 2 * i)

/-- `acc` in closed form: the sum of `d_i * 10000^(ndigits-1-i)` (R107). -/
def coefficient (s : State) (hp ndigits : Nat) : Nat :=
  ∑ i ∈ Finset.range ndigits, digitAt s hp i * 10000 ^ (ndigits - 1 - i)

/-! ### How a command ends -/

/-- The command `op` succeeded with these result registers (R140 steps 1 to 5). -/
def succeeded (op : OpCode) (r : Results) (s : State) : State :=
  { s with results := r, status := { done := true, err := .none, sub := .none, lastop := op } }

/-- The command `op` ended in an error: no result, everything else as it was (R159). -/
def failed (op : OpCode) (err : ErrCode) (sub : SubCause) (s : State) : State :=
  { s with results := Results.cleared, status := { done := true, err := err, sub := sub, lastop := op } }

/-- The operand registers and the buffer, all a command may read (R3). -/
def SameInputs (s t : State) : Prop :=
  s.buflen = t.buflen ∧ s.pos = t.pos ∧ s.len = t.len ∧ s.eword = t.eword ∧ ∀ a, byteAt s a = byteAt t a

/-! ### A word under decoding -/

/-- The command `i`, in state `s`, decodes the whole entry word `e` and reports as `op`: `EDEC` on `EWORD` (R83), or
`ELOAD` on the word at `POS` when it fits the buffer (R84). -/
def DecodesEntry (s : State) (i : Instr) (op : OpCode) (e : Word) : Prop :=
  (i = .edec ∧ op = 4 ∧ e = s.eword) ∨
  (i = .eload ∧ op = 5 ∧ s.pos.toNat + 4 ≤ s.buflen.toNat ∧ e.toNat = wordAt s s.pos.toNat)

/-- The command `i`, in state `s`, reaches the header word `h` at offset `hp` over a range of `n` bytes, reports as `op`,
and has read the length word `lw` (0 for a command that reads none): `NUMDEC` (R100 to R103), or `NUMFDEC` past the
padding and the length word (R121). -/
def DecodesHeader (s : State) (i : Instr) (op : OpCode) (hp n lw h : Nat) : Prop :=
  2 ≤ n ∧ hp + 2 ≤ s.buflen.toNat ∧ h = halfAt s hp ∧
  ((i = .numdec ∧ op = 6 ∧ hp = s.pos.toNat ∧ n = s.len.toNat ∧ lw = 0) ∨
   (i = .numfdec ∧ op = 7 ∧ hp = s.pos.toNat + (4 - s.pos.toNat % 4) % 4 + 4 ∧
      n + (4 - s.pos.toNat % 4) % 4 + 4 = s.len.toNat ∧
      lw = wordAt s (s.pos.toNat + (4 - s.pos.toNat % 4) % 4)))

/-- The weight of a Short header word as a number (R57). -/
def weightOf (h : Nat) : Int := if h % 2 ^ 7 < 64 then (h % 2 ^ 7 : Nat) else (h % 2 ^ 7 : Nat) - 128

/-! ### Binary64 (R112) -/

/-- The number of the binary64 pattern `p` with sign bit 0 and a finite exponent field: `f * 2^(-1074)` for exponent
field 0, `(2^52 + f) * 2^(E - 1075)` otherwise (G5). -/
def binary64Value (p : Nat) : ℚ :=
  if p / 2 ^ 52 = 0 then (p % 2 ^ 52 : ℕ) * (2 : ℚ) ^ (-1074 : ℤ)
  else (2 ^ 52 + p % 2 ^ 52 : ℕ) * (2 : ℚ) ^ ((p / 2 ^ 52 : ℕ) - 1075 : ℤ)

/-- One more than the largest finite pattern with sign bit 0: the pattern of infinity. -/
def binary64Infinity : Nat := 2047 * 2 ^ 52

/-- The finite pattern `p` is a binary64 number nearest to `q`, and the even one of two equally near (R112). -/
def IsNearestEven (p : Nat) (q : ℚ) : Prop :=
  p < binary64Infinity ∧
  ∀ p', p' < binary64Infinity → p' ≠ p →
    |binary64Value p - q| < |binary64Value p' - q| ∨
      (|binary64Value p - q| = |binary64Value p' - q| ∧ p % 2 = 0)

/-! ### Invariants of a safe run -/

/-- The pairs (`err`, `sub`) of R156. -/
def legalPair (e : ErrCode) (c : SubCause) : Bool :=
  match e, c with
  | .none, .none => true
  | .outOfBounds, .none => true
  | .malformedHeader, .entryTag => true
  | .malformedHeader, .numSpecial => true
  | .malformedHeader, .numRange => true
  | .unsupportedFeature, .numLong => true
  | .notYetParsed, .none => true
  | _, _ => false

/-- `STATUS` is one of the words the block can show: a legal pair (R156), `done = 0` exactly when `err` is NotYetParsed
(R13), and `lastop` 0 exactly before the first command, else a code of 1 to 7 (R13). -/
def StatusLegal (s : State) : Prop :=
  legalPair s.status.err s.status.sub = true ∧
  (s.status.done = false ↔ s.status.err = .notYetParsed) ∧
  (s.status.done = false ↔ s.status.lastop = 0) ∧
  s.status.lastop.toNat ≤ 7

/-- The Entry Codec result registers are 0. -/
def EntryCleared (r : Results) : Prop :=
  r.eOfflen = 0 ∧ r.eHasoff = 0 ∧ r.eTag = 0 ∧ r.eType = 0 ∧ r.eWord = 0

/-- The Numeric Decoder result registers are 0. -/
def NumericCleared (r : Results) : Prop :=
  r.nKind = .none ∧ r.nNeg = 0 ∧ r.nWeight = 0 ∧ r.nDscale = 0 ∧ r.nNdigits = 0 ∧ r.nShift = 0 ∧ r.nCoef = 0 ∧
  r.nIval = 0 ∧ r.nFval = 0 ∧ r.nLenword = 0 ∧ r.nHdr = 0

/-- The result registers are those of the last command: cleared unless it succeeded (R21), the `N_*` registers 0 after
an entry command, the `E_*` registers 0 after a numeric command (R184), `N_LENWORD` 0 after `NUMDEC` (R15). -/
def ResultsOfLastCommand (s : State) : Prop :=
  (s.status.err ≠ .none → s.results = Results.cleared) ∧
  (s.status.lastop.toNat ≤ 5 → NumericCleared s.results) ∧
  (6 ≤ s.status.lastop.toNat → EntryCleared s.results) ∧
  (s.status.lastop = 6 → s.results.nLenword = 0)

/-- After a successful `EDEC` or `ELOAD` the three fields make up the entry word (R93), and the variant is one of the
six, numbered as its tag (R82). -/
def EntryFieldsMakeWord (s : State) : Prop :=
  (s.status.err = .none ∧ (s.status.lastop = 4 ∨ s.status.lastop = 5)) →
    s.results.eWord = s.results.eHasoff ++ s.results.eTag ++ s.results.eOfflen ∧
    s.results.eType = s.results.eTag ∧ s.results.eTag.toNat ≤ 5

/-- What the registers of a numeric result say of each other (R108 to R112, R115 to R117): by kind, the exact triple
and its views. -/
def NumericConsistent (r : Results) : Prop :=
  match r.nKind with
  | .none => r.nHdr = 0 ∧ r.nCoef = 0 ∧ r.nIval = 0 ∧ r.nFval = 0
  | .int =>
    r.nShift.toInt = (r.nNdigits.toNat : Int) - r.nWeight.toInt - 1 ∧ r.nShift.toInt ≤ 0 ∧ r.nFval = 0 ∧
    r.nIval.toInt = (if r.nNeg = 1 then -1 else 1) * ((r.nCoef : Int) * 10000 ^ (-r.nShift.toInt).toNat)
  | .float =>
    r.nShift.toInt = (r.nNdigits.toNat : Int) - r.nWeight.toInt - 1 ∧ 0 < r.nShift.toInt ∧ r.nIval = 0 ∧
    r.nFval.toNat = r.nNeg.toNat * 2 ^ 63 + rne64 r.nCoef (10000 ^ r.nShift.toInt.toNat) ∧
    rne64 r.nCoef (10000 ^ r.nShift.toInt.toNat) < binary64Infinity
  | .nan => r = { Results.cleared with
      nKind := .nan, nHdr := 0xC000, nFval := 0x7FF8000000000000, nLenword := r.nLenword }
  | .pinf => r = { Results.cleared with
      nKind := .pinf, nHdr := 0xD000, nFval := 0x7FF0000000000000, nLenword := r.nLenword }
  | .ninf => r = { Results.cleared with
      nKind := .ninf, nHdr := 0xF000, nFval := 0xFFF0000000000000, nLenword := r.nLenword }

/-- All of them together, with the buffer's canonical form. -/
def SafeState (s : State) : Prop :=
  Memory.wf s.mem = true ∧ StatusLegal s ∧ ResultsOfLastCommand s ∧ EntryFieldsMakeWord s ∧
  NumericConsistent s.results

end Sys2Proof.Safety
end

