-- ==== Sys2Proof/Certificates/Slice0/Obligations.lean ====
section
/-!
DEFINITION. The statements for the provers. Each docstring names the rules of spec/ it formalises; where a clause rests
on a choice of the model it names the log entry.
-/

open Sys2Proof Sys2Proof.Machine Sys2Proof.Safety

/-! ### Reset, STATUS and the host's registers -/

/-- R20: after reset every register reads 0 but `STATUS`, which reads 0x0000000A (done 0, err NotYetParsed, sub 0,
lastop 0), and every read of the buffer is out of bounds. -/
def Obligations.ResetRegistersHoldZero : Prop :=
  (∀ r, r ≠ 1 → regValue State.reset r = 0) ∧ regValue State.reset 1 = 0x0000000A ∧
  State.reset.status = { done := false, err := .notYetParsed, sub := .none, lastop := 0 } ∧
  ∀ a n, 0 < n → memRead State.reset a n = .error .outOfBounds

/-- R180, R181: the reset event puts every register at its reset value and leaves the buffer; that it comes as a host
action, and what becomes of the host's own lists, is log entry 17. -/
def Obligations.ResetEventRestoresRegisters : Prop :=
  ∀ (s : State) (rest : List HostAction), s.pending = .reset :: rest →
    ∃ t, step s = .next t ∧ (∀ r, regValue t r = regValue State.reset r) ∧
      (∀ a, byteAt t a = byteAt s a) ∧ t.pending = rest ∧ t.seen = s.seen

/-- R13 with the codes of R150 and R156: `STATUS` is `done | err<<1 | sub<<4 | lastop<<7`, all other bits 0. -/
def Obligations.StatusWordLayout : Prop :=
  (∀ st : Status, (statusWord st).toNat =
    (if st.done then 1 else 0) + 2 * (errCode st.err).toNat + 2 ^ 4 * (subCode st.sub).toNat +
      2 ^ 7 * st.lastop.toNat) ∧
  [ErrCode.none, .outOfBounds, .malformedHeader, .unsupportedFeature, .invalidInputType, .notYetParsed].map errCode =
    [0, 1, 2, 3, 4, 5] ∧
  [SubCause.none, .entryTag, .numSpecial, .numRange, .numLong].map subCode = [0, 1, 2, 3, 4]

/-- R142, R12, R22 with the numbers of R10: a host read returns the register's value and changes nothing else; `CMD` and
the unassigned numbers read 0. That the value is kept in `seen` is log entry 3. -/
def Obligations.RegisterReadReturnsValue : Prop :=
  ∀ s : State,
    (∀ r rest, s.pending = .readReg r :: rest →
      step s = .next { s with pending := rest, seen := s.seen ++ [regValue s r] }) ∧
    [1, 2, 3, 4, 5].map (regValue s) =
      [(statusWord s.status).toNat, s.buflen.toNat, s.pos.toNat, s.len.toNat, s.eword.toNat] ∧
    [8, 9, 10, 11, 12].map (regValue s) =
      [s.results.eOfflen.toNat, s.results.eHasoff.toNat, s.results.eTag.toNat, s.results.eType.toNat,
        s.results.eWord.toNat] ∧
    [16, 17, 18, 19, 20, 21, 22, 23, 24, 25, 26].map (regValue s) =
      [(kindCode s.results.nKind).toNat, s.results.nNeg.toNat, s.results.nWeight.toNat, s.results.nDscale.toNat,
        s.results.nNdigits.toNat, s.results.nShift.toNat, s.results.nCoef, s.results.nIval.toNat,
        s.results.nFval.toNat, s.results.nLenword.toNat, s.results.nHdr.toNat] ∧
    ∀ r, r ∈ [0, 6, 7, 13, 14, 15] ∨ 27 ≤ r → regValue s r = 0

/-- R141: a write of an operand register stores the value truncated to 32 bits and does nothing else, and no command
changes an operand register. -/
def Obligations.OperandWriteStoresTruncated : Prop :=
  (∀ (s : State) (v : Nat) (rest : List HostAction),
    (s.pending = .writeReg 2 v :: rest → step s = .next { s with pending := rest, buflen := BitVec.ofNat 32 v }) ∧
    (s.pending = .writeReg 3 v :: rest → step s = .next { s with pending := rest, pos := BitVec.ofNat 32 v }) ∧
    (s.pending = .writeReg 4 v :: rest → step s = .next { s with pending := rest, len := BitVec.ofNat 32 v }) ∧
    (s.pending = .writeReg 5 v :: rest → step s = .next { s with pending := rest, eword := BitVec.ofNat 32 v })) ∧
  ∀ (i : Instr) (s t : State), exec i s = .next t →
    t.buflen = s.buflen ∧ t.pos = s.pos ∧ t.len = s.len ∧ t.eword = s.eword

/-- R22: a write of a read-only or unassigned register number changes nothing, and an unassigned number reads 0. -/
def Obligations.OtherRegisterWritesIgnored : Prop :=
  (∀ (s : State) (r v : Nat) (rest : List HostAction), s.pending = .writeReg r v :: rest → r = 1 ∨ 6 ≤ r →
    step s = .next { s with pending := rest }) ∧
  ∀ (s : State) (r : Nat), r ∈ [6, 7, 13, 14, 15] ∨ 27 ≤ r → regValue s r = 0

/-- R41: the host's change of one byte of its buffer is what the block then reads there; every other byte and every
register stays. The buffer's canonical form is the premise (see StepKeepsMemoryCanonical). -/
def Obligations.BufferWriteChangesOneByte : Prop :=
  ∀ (s : State) (a : Nat) (b : Byte) (rest : List HostAction), Memory.wf s.mem = true →
    s.pending = .writeBuffer a b :: rest →
    ∃ t, step s = .next t ∧ byteAt t a = b.toNat ∧ (∀ c, c ≠ a → byteAt t c = byteAt s c) ∧
      t = { s with pending := rest, mem := t.mem }

/-- R41, R146: binding another buffer gives its bytes from offset 0; beyond them an unwritten byte reads 0 (log entry
5); no register changes. -/
def Obligations.BindBufferGivesItsBytes : Prop :=
  ∀ (s : State) (bs : List Byte) (rest : List HostAction), s.pending = .bindBuffer bs :: rest →
    ∃ t, step s = .next t ∧
      (∀ a, byteAt t a = if a < bs.length then (bs.getD a 0).toNat else 0) ∧
      t = { s with pending := rest, mem := t.mem }

/-! ### Steps and decoding -/

/-- R12, R64 and log entry 16: a write of `CMD` runs the instruction its low four bits decode to, in the state where the
write is no longer pending; a step adds nothing else. With no host action left a step changes nothing (R191, log entry
2). -/
def Obligations.StepRunsDecodedCommand : Prop :=
  (∀ (s : State) (v : Nat) (rest : List HostAction), s.pending = .writeReg 0 v :: rest →
    step s = exec (decodeCommand (BitVec.ofNat 4 v)) { s with pending := rest }) ∧
  ∀ s : State, s.pending = [] → step s = .next s

/-- Log entry 7: a table word placed by `withFetchWord` is run by the next step as the instruction it decodes to. -/
def Obligations.FetchWordRunsDecodedWord : Prop :=
  ∀ s : State, Memory.wf s.mem = true →
    (∀ w, w < 2 ^ 4 → step (s.withFetchWord 8 w) = exec (decodeCommand (BitVec.ofNat 4 w)) s) ∧
    (∀ w, w < 2 ^ 16 → step (s.withFetchWord 16 w) =
      exec (decodeHeader (BitVec.ofNat 16 w)) { s.withFetchWord 16 w with pending := s.pending }) ∧
    (∀ w, w < 2 ^ 32 → step (s.withFetchWord 32 w) =
      exec (decodeEntry (BitVec.ofNat 32 w)) { s.withFetchWord 32 w with pending := s.pending })

/-- R143: a write to `CMD` of 0 or of 8 to 15 is refused. -/
def Obligations.ReservedCommandsRefused : Prop :=
  (∀ (s : State) (op : Nat) (rest : List HostAction), s.pending = .writeReg 0 op :: rest →
    op = 0 ∨ (8 ≤ op ∧ op ≤ 15) → step s = .refused (.reservedCommand (BitVec.ofNat 4 op))) ∧
  (∀ s : State, exec .reservedZero s = .refused (.reservedCommand 0)) ∧
  ∀ (low : BitVec 3) (s : State), exec (.reservedHigh low) s = .refused (.reservedCommand (1#1 ++ low))

/-- R51, R56, R59, R64: words written out from the spec's encodings decode to what they stand for. -/
def Obligations.SpecWordsDecode : Prop :=
  [decodeTableWord 8 1, decodeTableWord 8 2, decodeTableWord 8 3, decodeTableWord 8 4, decodeTableWord 8 5,
    decodeTableWord 8 6, decodeTableWord 8 7] =
    [some .eofflen, some .ehasoff, some .etype, some .edec, some .eload, some .numdec, some .numfdec] ∧
  [decodeTableWord 32 0x1000000A, decodeTableWord 32 0x9000000E, decodeTableWord 32 0x50000014] =
    [some (.entryNumeric 0 10), some (.entryNumeric 1 14), some (.entryContainer 0 20)] ∧
  [decodeTableWord 16 0x80FF, decodeTableWord 16 0xA200, decodeTableWord 16 0xC000, decodeTableWord 16 0xC080] =
    [some (.numShort 0 1 0x7F), some (.numShort 1 4 0), some .numNan, some (.numSpecialBad 0x0080)]

/-- R51 to R64: decoding the bytes of any well-formed instruction gives it back, every field at every value. -/
def Obligations.DecodeEncodeRoundTrip : Prop :=
  ∀ i : Instr, i.WellFormed = true → decodeBytes (encodeBytes i) = .ok i

/-- R51 to R64: what bytes decode to is well-formed and encodes to the same bytes, so no bit of a word is dropped. -/
def Obligations.EncodeDecodeRoundTrip : Prop :=
  ∀ (bs : List Byte) (i : Instr), decodeBytes bs = .ok i → i.WellFormed = true ∧ encodeBytes i = bs

/-- R67: a command code or entry word matches exactly the row it decodes to; a numeric header word matches that row and
besides it only `NUM.SPECIAL_BAD`, over the three special words. -/
def Obligations.WordsSelectTheirRow : Prop :=
  (∀ (op : OpCode) (i : Instr), (tableRow i).format = .cmd4 →
    (matchesRow op.toNat (tableRow i) = true ↔ tableRow i = tableRow (decodeCommand op))) ∧
  (∀ (e : Word) (i : Instr), (tableRow i).format = .entry32 →
    (matchesRow e.toNat (tableRow i) = true ↔ tableRow i = tableRow (decodeEntry e))) ∧
  ∀ (h : Half) (i : Instr), (tableRow i).format = .numhdr16 →
    (matchesRow h.toNat (tableRow i) = true ↔
      tableRow i = tableRow (decodeHeader h) ∨
        (tableRow i = tableRow (.numSpecialBad 0) ∧ decodeHeader h ∈ [.numNan, .numPinf, .numNinf]))

/-! ### The buffer -/

/-- R31: `MemRead` is OutOfBounds exactly when `addr + n > BUFLEN` on unbounded integers, and otherwise gives the `n`
bytes from `addr`, lowest offset first. -/
def Obligations.MemReadChecksBounds : Prop :=
  ∀ (s : State) (addr n : Nat),
    (addr + n > s.buflen.toNat → memRead s addr n = .error .outOfBounds) ∧
    (addr + n ≤ s.buflen.toNat →
      memRead s addr n = .ok ((List.range n).map fun k => Memory.read s.mem (addr + k)))

/-- R32, R33: both reads are little-endian and bounds-checked. -/
def Obligations.ReadsAreLittleEndian : Prop :=
  ∀ (s : State) (a : Nat),
    (a + 2 > s.buflen.toNat → readU16LE s a = .error .outOfBounds) ∧
    (a + 2 ≤ s.buflen.toNat → ∃ h, readU16LE s a = .ok h ∧ h.toNat = halfAt s a) ∧
    (a + 4 > s.buflen.toNat → readU32LE s a = .error .outOfBounds) ∧
    (a + 4 ≤ s.buflen.toNat → ∃ w, readU32LE s a = .ok w ∧ w.toNat = wordAt s a)

/-! ### Entry Codec -/

/-- R80: `EOFFLEN` on every word. -/
def Obligations.EofflenResult : Prop :=
  ∀ s : State, exec .eofflen s =
    .next (succeeded 1 { Results.cleared with eWord := s.eword, eOfflen := s.eword.extractLsb' 0 28 } s)

/-- R81: `EHASOFF` on every word. -/
def Obligations.EhasoffResult : Prop :=
  ∀ s : State, exec .ehasoff s =
    .next (succeeded 2 { Results.cleared with eWord := s.eword, eHasoff := s.eword.extractLsb' 31 1 } s)

/-- R82: `ETYPE` reports tag and variant for tags 0 to 5 and raises MalformedHeader(ENTRY_TAG) for 6 and 7. -/
def Obligations.EtypeResult : Prop :=
  ∀ s : State,
    ((s.eword.extractLsb' 28 3).toNat ≤ 5 → exec .etype s =
      .next (succeeded 3 { Results.cleared with
        eWord := s.eword, eTag := s.eword.extractLsb' 28 3, eType := s.eword.extractLsb' 28 3 } s)) ∧
    (6 ≤ (s.eword.extractLsb' 28 3).toNat → exec .etype s = .next (failed 3 .malformedHeader .entryTag s))

/-- R83: `EDEC` reports all fields for tags 0 to 5 and raises MalformedHeader(ENTRY_TAG) for 6 and 7, with no field
delivered. -/
def Obligations.EdecResult : Prop :=
  ∀ s : State,
    ((s.eword.extractLsb' 28 3).toNat ≤ 5 → exec .edec s =
      .next (succeeded 4 { Results.cleared with
        eWord := s.eword, eOfflen := s.eword.extractLsb' 0 28, eHasoff := s.eword.extractLsb' 31 1,
        eTag := s.eword.extractLsb' 28 3, eType := s.eword.extractLsb' 28 3 } s)) ∧
    (6 ≤ (s.eword.extractLsb' 28 3).toNat → exec .edec s = .next (failed 4 .malformedHeader .entryTag s))

/-- R84: `ELOAD` reads the little-endian word at `POS` first (OutOfBounds if it does not fit, on unbounded integers),
then does what `EDEC` does with it. -/
def Obligations.EloadResult : Prop :=
  ∀ s : State,
    (s.pos.toNat + 4 > s.buflen.toNat → exec .eload s = .next (failed 5 .outOfBounds .none s)) ∧
    (s.pos.toNat + 4 ≤ s.buflen.toNat →
      ∃ e : Word, e.toNat = wordAt s s.pos.toNat ∧
        ((e.extractLsb' 28 3).toNat ≤ 5 → exec .eload s =
          .next (succeeded 5 { Results.cleared with
            eWord := e, eOfflen := e.extractLsb' 0 28, eHasoff := e.extractLsb' 31 1,
            eTag := e.extractLsb' 28 3, eType := e.extractLsb' 28 3 } s)) ∧
        (6 ≤ (e.extractLsb' 28 3).toNat → exec .eload s = .next (failed 5 .malformedHeader .entryTag s)))

/-- R85 to R90: on an entry word of a legal tag `k` the commands `ETYPE`, `EDEC`, `ELOAD` succeed with `E_TYPE = k`: 0
STRING, 1 NUMERIC, 2 BOOL_FALSE, 3 BOOL_TRUE, 4 NULL, 5 CONTAINER; `offlen` and `hasoff` are reported as they stand. -/
def Obligations.LegalEntryWordsReportVariant : Prop :=
  (∀ (s : State) (i : Instr) (op : OpCode) (e : Word), DecodesEntry s i op e → e.toNat / 2 ^ 28 % 8 ≤ 5 →
    ∃ r, exec i s = .next (succeeded op r s) ∧ r.eType.toNat = e.toNat / 2 ^ 28 % 8 ∧ r.eTag = r.eType ∧
      r.eOfflen.toNat = e.toNat % 2 ^ 28 ∧ r.eHasoff.toNat = e.toNat / 2 ^ 31 ∧ r.eWord = e ∧ NumericCleared r) ∧
  ∀ s : State, s.eword.toNat / 2 ^ 28 % 8 ≤ 5 →
    ∃ r, exec .etype s = .next (succeeded 3 r s) ∧ r.eType.toNat = s.eword.toNat / 2 ^ 28 % 8

/-- R91, R92: on an entry word of tag 6 or 7 `ETYPE`, `EDEC` and `ELOAD` raise MalformedHeader(ENTRY_TAG), while `EOFFLEN`
and `EHASOFF` succeed. -/
def Obligations.UnusedEntryTagsRaise : Prop :=
  (∀ (s : State) (i : Instr) (op : OpCode) (e : Word), DecodesEntry s i op e → 6 ≤ e.toNat / 2 ^ 28 % 8 →
    exec i s = .next (failed op .malformedHeader .entryTag s)) ∧
  ∀ s : State, 6 ≤ s.eword.toNat / 2 ^ 28 % 8 →
    exec .etype s = .next (failed 3 .malformedHeader .entryTag s) ∧
    (∃ r, exec .eofflen s = .next (succeeded 1 r s) ∧ r.eOfflen.toNat = s.eword.toNat % 2 ^ 28) ∧
    ∃ r, exec .ehasoff s = .next (succeeded 2 r s) ∧ r.eHasoff.toNat = s.eword.toNat / 2 ^ 31

/-- Log entry 6 with R83, R85 to R92: the eight entry rows, run as instructions of their own, complete as `EDEC` on their
word: the six legal tags succeed with their `E_TYPE` and the word's fields, the two unused tags end in
MalformedHeader(ENTRY_TAG) with no result. -/
def Obligations.EntryRowsComplete : Prop :=
  ∀ (h : BitVec 1) (o : BitVec 28) (s : State),
    [Instr.entryString h o, .entryNumeric h o, .entryBoolFalse h o, .entryBoolTrue h o, .entryNull h o,
      .entryContainer h o].map (fun i => exec i s) =
    [0, 1, 2, 3, 4, 5].map (fun k : BitVec 3 => .next (succeeded 4 { Results.cleared with
      eWord := h ++ k ++ o, eOfflen := o, eHasoff := h, eTag := k, eType := k } s)) ∧
    exec (.entryReserved6 h o) s = .next (failed 4 .malformedHeader .entryTag s) ∧
    exec (.entryReserved7 h o) s = .next (failed 4 .malformedHeader .entryTag s)

/-- R93, which the spec derives from R83 and R51: after a successful `EDEC` the three fields make up the word, and the
register-form commands give the same results whatever `POS`, `LEN`, `BUFLEN` and the buffer hold. -/
def Obligations.EntryFieldsPartitionWord : Prop :=
  (∀ s t : State, exec .edec s = .next t → t.status.err = .none →
    t.results.eHasoff.toNat * 2 ^ 31 + t.results.eTag.toNat * 2 ^ 28 + t.results.eOfflen.toNat = s.eword.toNat) ∧
  ∀ (i : Instr) (s s' t t' : State), i ∈ [.eofflen, .ehasoff, .etype, .edec] → s.eword = s'.eword →
    exec i s = .next t → exec i s' = .next t' → t.results = t'.results ∧ t.status = t'.status

/-- Log entry 6: `EDEC` does what the row of its word does. -/
def Obligations.EdecRunsEntryRow : Prop :=
  ∀ s : State, exec .edec s = exec (decodeEntry s.eword) s

/-! ### Numeric Decoder -/

/-- R102: a range shorter than the header is MalformedHeader(NUM_RANGE) before any read. -/
def Obligations.NumdecRangeTooShort : Prop :=
  ∀ s : State, s.len.toNat < 2 → exec .numdec s = .next (failed 6 .malformedHeader .numRange s)

/-- R103: the header fetch of `NUMDEC` at `POS`, and of `NUMFDEC` past the padding and the length word, is OutOfBounds when
it does not fit the buffer; and, as the spec derives there, each header field comes from the byte the rule names. -/
def Obligations.HeaderFetchAndFieldBytes : Prop :=
  (∀ s : State, 2 ≤ s.len.toNat → s.pos.toNat + 2 > s.buflen.toNat →
    exec .numdec s = .next (failed 6 .outOfBounds .none s)) ∧
  (∀ (s : State) (pad : Nat), pad = (4 - s.pos.toNat % 4) % 4 → pad + 6 ≤ s.len.toNat →
    s.pos.toNat + pad + 6 > s.buflen.toNat → exec .numfdec s = .next (failed 7 .outOfBounds .none s)) ∧
  ∀ (s : State) (a : Nat), a + 2 ≤ s.buflen.toNat → ∃ h, readU16LE s a = .ok h ∧
    (headerVariant h).toNat = byteAt s (a + 1) / 2 ^ 6 ∧
    (headerSign h).toNat = byteAt s (a + 1) / 2 ^ 5 % 2 ∧
    (headerDscale h).toNat = 2 * (byteAt s (a + 1) % 2 ^ 5) + byteAt s a / 2 ^ 7 ∧
    (headerWeight h).toNat = byteAt s a % 2 ^ 7

/-- R104 with the ends of R101: every header word goes to exactly one branch by its two high bits, and each branch ends
only as the state machine says. -/
def Obligations.NumericBranchByVariant : Prop :=
  ∀ (s : State) (i : Instr) (op : OpCode) (hp n lw h : Nat), DecodesHeader s i op hp n lw h →
    ∃ t, exec i s = .next t ∧
      (h / 2 ^ 14 = 0 ∨ h / 2 ^ 14 = 1 → t = failed op .unsupportedFeature .numLong s) ∧
      (h / 2 ^ 14 = 2 → t = failed op .malformedHeader .numRange s ∨ t = failed op .outOfBounds .none s ∨
        (t.status.err = .none ∧ (t.results.nKind = .int ∨ t.results.nKind = .float))) ∧
      (h / 2 ^ 14 = 3 → t = failed op .malformedHeader .numSpecial s ∨
        (t.status.err = .none ∧
          (t.results.nKind = .nan ∨ t.results.nKind = .pinf ∨ t.results.nKind = .ninf)))

/-- R119, R120: a Long header word of either sign raises UnsupportedFeature(NUM_LONG), whatever its low bits, the rest of
the range and the buffer after it. -/
def Obligations.LongHeadersUnsupported : Prop :=
  ∀ (s : State) (i : Instr) (op : OpCode) (hp n lw h : Nat), DecodesHeader s i op hp n lw h →
    h / 2 ^ 14 = 0 ∨ h / 2 ^ 14 = 1 → exec i s = .next (failed op .unsupportedFeature .numLong s)

/-- R115 to R117: the three special header words give NaN, +Infinity and -Infinity, whatever follows them. -/
def Obligations.SpecialHeadersGiveValues : Prop :=
  ∀ (s : State) (i : Instr) (op : OpCode) (hp n lw h : Nat), DecodesHeader s i op hp n lw h →
    (h = 0xC000 → exec i s = .next (succeeded op { Results.cleared with
      nKind := .nan, nHdr := 0xC000, nFval := 0x7FF8000000000000, nLenword := BitVec.ofNat 32 lw } s)) ∧
    (h = 0xD000 → exec i s = .next (succeeded op { Results.cleared with
      nKind := .pinf, nHdr := 0xD000, nFval := 0x7FF0000000000000, nLenword := BitVec.ofNat 32 lw } s)) ∧
    (h = 0xF000 → exec i s = .next (succeeded op { Results.cleared with
      nKind := .ninf, nHdr := 0xF000, nFval := 0xFFF0000000000000, nLenword := BitVec.ofNat 32 lw } s))

/-- R118: any other Special header word raises MalformedHeader(NUM_SPECIAL). -/
def Obligations.OtherSpecialHeadersMalformed : Prop :=
  ∀ (s : State) (i : Instr) (op : OpCode) (hp n lw h : Nat), DecodesHeader s i op hp n lw h →
    h / 2 ^ 14 = 3 → h ≠ 0xC000 → h ≠ 0xD000 → h ≠ 0xF000 →
    exec i s = .next (failed op .malformedHeader .numSpecial s)

/-- R106: an odd number of bytes after a Short header raises MalformedHeader(NUM_RANGE), also when the range runs past the
buffer; otherwise the digit count is half that number, 0 included, and no count is too large (R123 lets a model take
`NDIGITS_MAX` unbounded, log entry 15). -/
def Obligations.ShortDigitCount : Prop :=
  ∀ (s : State) (i : Instr) (op : OpCode) (hp n lw h : Nat), DecodesHeader s i op hp n lw h → h / 2 ^ 14 = 2 →
    ((n - 2) % 2 = 1 → exec i s = .next (failed op .malformedHeader .numRange s)) ∧
    ((n - 2) % 2 = 0 → hp + n ≤ s.buflen.toNat →
      ∃ r, exec i s = .next (succeeded op r s) ∧ r.nNdigits.toNat = (n - 2) / 2)

/-- R107: the coefficient is the exact sum of `d_i * 10000^(ndigits-1-i)` for every digit value; the branch raises
OutOfBounds exactly when the digits run past the buffer, which the spec derives in R107 from R31. -/
def Obligations.ShortAccumulatesDigits : Prop :=
  ∀ (s : State) (i : Instr) (op : OpCode) (hp n lw h k : Nat), DecodesHeader s i op hp n lw h → h / 2 ^ 14 = 2 →
    n = 2 + 2 * k →
    (hp + 2 + 2 * k > s.buflen.toNat → exec i s = .next (failed op .outOfBounds .none s)) ∧
    (hp + 2 + 2 * k ≤ s.buflen.toNat →
      ∃ r, exec i s = .next (succeeded op r s) ∧ r.nCoef = coefficient s hp k)

/-- R105 with the end of the Short branch (41_numeric_decoder.md section 3): every Short header is accepted when its whole
digits fit the buffer; its fields, digit count, coefficient and shift are in their registers, and `N_LENWORD` is the raw
length word (R121). The coefficient is below `2^(16*ndigits)`, and below `10000^ndigits` when every digit is below 10000:
the bounds the spec derives in R107. -/
def Obligations.ShortResultRegisters : Prop :=
  ∀ (s : State) (i : Instr) (op : OpCode) (hp n lw h k : Nat), DecodesHeader s i op hp n lw h → h / 2 ^ 14 = 2 →
    n = 2 + 2 * k → hp + n ≤ s.buflen.toNat →
    ∃ r, exec i s = .next (succeeded op r s) ∧ EntryCleared r ∧ r.nHdr.toNat = h ∧
      r.nNeg.toNat = h / 2 ^ 13 % 2 ∧ r.nDscale.toNat = h / 2 ^ 7 % 2 ^ 6 ∧ r.nWeight.toNat = h % 2 ^ 7 ∧
      r.nWeight.toInt = weightOf h ∧ r.nNdigits.toNat = k ∧ r.nCoef = coefficient s hp k ∧
      r.nShift.toInt = k - weightOf h - 1 ∧ r.nLenword.toNat = lw ∧ r.nCoef < 2 ^ (16 * k) ∧
      ((∀ j, j < k → digitAt s hp j < 10000) → r.nCoef < 10000 ^ k)

/-- R108: `shift = ndigits - weight - 1`, between -64 and `ndigits + 63`, and the exact magnitude the triple delivers,
`acc * 10000^(-shift)`, is the sum of `d_i * 10000^(weight - i)`: the equivalent form the spec derives in that rule. -/
def Obligations.TripleIsWeightedDigitSum : Prop :=
  ∀ (s : State) (i : Instr) (op : OpCode) (hp n lw h k : Nat), DecodesHeader s i op hp n lw h → h / 2 ^ 14 = 2 →
    n = 2 + 2 * k → hp + n ≤ s.buflen.toNat →
    ∃ r, exec i s = .next (succeeded op r s) ∧ r.nShift.toInt = k - weightOf h - 1 ∧
      -64 ≤ r.nShift.toInt ∧ r.nShift.toInt ≤ k + 63 ∧
      (r.nCoef : ℚ) = coefficient s hp k ∧ r.nNeg.toNat = h / 2 ^ 13 % 2 ∧
      (r.nCoef : ℚ) * (10000 : ℚ) ^ (-r.nShift.toInt) =
        ∑ j ∈ Finset.range k, (digitAt s hp j : ℚ) * (10000 : ℚ) ^ (weightOf h - j)

/-- R109: the kind is INT if `shift <= 0` and FLOAT if `shift > 0`, by `shift` alone. With it from R110: `N_NEG` is the sign
bit, and a zero magnitude gives `N_IVAL` 0 and, with sign 1 and kind FLOAT, the negative-zero pattern in `N_FVAL`. -/
def Obligations.KindAndSign : Prop :=
  ∀ (s : State) (i : Instr) (op : OpCode) (hp n lw h k : Nat), DecodesHeader s i op hp n lw h → h / 2 ^ 14 = 2 →
    n = 2 + 2 * k → hp + n ≤ s.buflen.toNat →
    ∃ r, exec i s = .next (succeeded op r s) ∧ r.nNeg.toNat = h / 2 ^ 13 % 2 ∧
      r.nKind = (if (k : Int) - weightOf h - 1 ≤ 0 then .int else .float) ∧
      (coefficient s hp k = 0 → r.nIval = 0) ∧
      (coefficient s hp k = 0 → r.nNeg = 1 → r.nKind = .float → r.nFval = 0x8000000000000000)

/-- R111: for kind INT `N_FVAL` is 0 and `N_IVAL`, read as two's complement, is the exact integer
`(-1)^neg * acc * 10000^(-shift)`. -/
def Obligations.IntegerViewIsExact : Prop :=
  ∀ (s : State) (i : Instr) (op : OpCode) (hp n lw h k : Nat), DecodesHeader s i op hp n lw h → h / 2 ^ 14 = 2 →
    n = 2 + 2 * k → hp + n ≤ s.buflen.toNat → (k : Int) ≤ weightOf h + 1 →
    ∃ r, exec i s = .next (succeeded op r s) ∧ r.nKind = .int ∧ r.nFval = 0 ∧
      r.nIval.toInt = (if h / 2 ^ 13 % 2 = 1 then -1 else 1) *
        ((coefficient s hp k : Int) * 10000 ^ (weightOf h + 1 - k).toNat)

/-- The width the spec derives in R111: a Short numeric of kind INT has at most 64 digits, and its exact magnitude is at
most `65535 * (10000^64 - 1) / 9999`, so below `2^854`, and below `10^256` when every digit is below 10000. -/
def Obligations.IntegerViewFitsItsRegister : Prop :=
  ∀ (s : State) (i : Instr) (op : OpCode) (hp n lw h k : Nat), DecodesHeader s i op hp n lw h → h / 2 ^ 14 = 2 →
    n = 2 + 2 * k → hp + n ≤ s.buflen.toNat → (k : Int) ≤ weightOf h + 1 →
    ∃ r, exec i s = .next (succeeded op r s) ∧ k ≤ 64 ∧
      r.nIval.toInt.natAbs = coefficient s hp k * 10000 ^ (weightOf h + 1 - k).toNat ∧
      9999 * r.nIval.toInt.natAbs ≤ 65535 * (10000 ^ 64 - 1) ∧ r.nIval.toInt.natAbs < 2 ^ 854 ∧
      ((∀ j, j < k → digitAt s hp j < 10000) → r.nIval.toInt.natAbs < 10 ^ 256)

/-- R112: for kind FLOAT `N_IVAL` is 0 and `N_FVAL` is the sign bit over the finite binary64 pattern nearest to the exact
magnitude, the even one of two equally near; 0 for magnitude 0. -/
def Obligations.FloatViewIsNearestBinary64 : Prop :=
  ∀ (s : State) (i : Instr) (op : OpCode) (hp n lw h k : Nat), DecodesHeader s i op hp n lw h → h / 2 ^ 14 = 2 →
    n = 2 + 2 * k → hp + n ≤ s.buflen.toNat → weightOf h + 1 < k →
    ∃ r p, exec i s = .next (succeeded op r s) ∧ r.nKind = .float ∧ r.nIval = 0 ∧
      r.nFval.toNat = h / 2 ^ 13 % 2 * 2 ^ 63 + p ∧
      IsNearestEven p ((coefficient s hp k : ℚ) * (10000 : ℚ) ^ (weightOf h + 1 - k)) ∧
      (coefficient s hp k = 0 → p = 0)

/-- The rounding of R112 as the model computes it: `rne64` of a rational below `2^1023` is the finite pattern nearest to
it, the even one of two equally near. -/
def Obligations.Rne64IsNearestEven : Prop :=
  ∀ num den : Nat, 0 < den → num < den * 2 ^ 1023 → IsNearestEven (rne64 num den) ((num : ℚ) / den)

/-- R114: two Short headers that differ only in `dscale`, before the same digits, decode to the same value; `dscale` itself
is copied to `N_DSCALE`. -/
def Obligations.DscaleHasNoEffect : Prop :=
  ∀ (s s' : State) (i : Instr) (op : OpCode) (hp n lw lw' h h' : Nat),
    DecodesHeader s i op hp n lw h → DecodesHeader s' i op hp n lw' h' →
    h / 2 ^ 14 = 2 → h / 2 ^ 13 = h' / 2 ^ 13 → h % 2 ^ 7 = h' % 2 ^ 7 → s.buflen = s'.buflen →
    (∀ a, hp + 2 ≤ a → byteAt s a = byteAt s' a) →
    ∃ t t', exec i s = .next t ∧ exec i s' = .next t' ∧ t.status = t'.status ∧
      (t.status.err = .none → t.results.nDscale.toNat = h / 2 ^ 7 % 2 ^ 6) ∧
      t.results.nKind = t'.results.nKind ∧ t.results.nCoef = t'.results.nCoef ∧
      t.results.nShift = t'.results.nShift ∧ t.results.nIval = t'.results.nIval ∧
      t.results.nFval = t'.results.nFval

/-- Log entry 6 with R115 to R120: the six rows other than `NUM.SHORT`, run as instructions of their own, complete as
`NUMDEC` whose header word they are, whenever the range holds a header and the header fits the buffer. -/
def Obligations.FixedHeaderRowsComplete : Prop :=
  ∀ (s : State) (x : BitVec 14), 2 ≤ s.len.toNat → s.pos.toNat + 2 ≤ s.buflen.toNat →
    exec (.numLongPos x) s = .next (failed 6 .unsupportedFeature .numLong s) ∧
    exec (.numLongNeg x) s = .next (failed 6 .unsupportedFeature .numLong s) ∧
    exec (.numSpecialBad x) s = .next (failed 6 .malformedHeader .numSpecial s) ∧
    exec .numNan s = .next (succeeded 6
      { Results.cleared with nKind := .nan, nHdr := 0xC000, nFval := 0x7FF8000000000000 } s) ∧
    exec .numPinf s = .next (succeeded 6
      { Results.cleared with nKind := .pinf, nHdr := 0xD000, nFval := 0x7FF0000000000000 } s) ∧
    exec .numNinf s = .next (succeeded 6
      { Results.cleared with nKind := .ninf, nHdr := 0xF000, nFval := 0xFFF0000000000000 } s)

/-- Log entry 6 with R105 to R112: the row `NUM.SHORT`, run as an instruction of its own, completes as `NUMDEC` whose header
word it is: the errors of R106 and R107, or every result register: the fields of the row, the digits at `POS + 2`, their
shift, the kind by it, the exact integer view or the nearest binary64 view, and 0 in `N_LENWORD` and the `E_*` registers. -/
def Obligations.ShortRowCompletes : Prop :=
  ∀ (s : State) (sign : BitVec 1) (d : BitVec 6) (w : BitVec 7) (k : Nat),
    2 ≤ s.len.toNat → s.pos.toNat + 2 ≤ s.buflen.toNat → s.len.toNat / 2 = k + 1 →
    (s.len.toNat % 2 = 1 → exec (.numShort sign d w) s = .next (failed 6 .malformedHeader .numRange s)) ∧
    (s.len.toNat % 2 = 0 → s.pos.toNat + s.len.toNat > s.buflen.toNat →
      exec (.numShort sign d w) s = .next (failed 6 .outOfBounds .none s)) ∧
    (s.len.toNat % 2 = 0 → s.pos.toNat + s.len.toNat ≤ s.buflen.toNat →
      ∃ r, exec (.numShort sign d w) s = .next (succeeded 6 r s) ∧ r.nHdr = 2#2 ++ sign ++ d ++ w ∧
        r.nNeg = sign ∧ r.nDscale = d ∧ r.nWeight = w ∧ r.nNdigits.toNat = k ∧
        r.nCoef = coefficient s s.pos.toNat k ∧ r.nShift.toInt = k - w.toInt - 1 ∧
        EntryCleared r ∧ r.nLenword = 0 ∧
        ((k : Int) ≤ w.toInt + 1 → r.nKind = .int ∧ r.nFval = 0 ∧
          r.nIval.toInt = (if sign = 1 then -1 else 1) *
            ((coefficient s s.pos.toNat k : Int) * 10000 ^ (w.toInt + 1 - k).toNat)) ∧
        (w.toInt + 1 < k → r.nKind = .float ∧ r.nIval = 0 ∧
          ∃ p, r.nFval.toNat = sign.toNat * 2 ^ 63 + p ∧
            IsNearestEven p ((coefficient s s.pos.toNat k : ℚ) * (10000 : ℚ) ^ (w.toInt + 1 - k))))

/-- R121: `NUMFDEC` on a range too short is MalformedHeader(NUM_RANGE); on a length word out of the buffer OutOfBounds; and
otherwise `NUMDEC` on the packed numeric, with the raw length word in `N_LENWORD` on success. This relation to `NUMDEC` is
what the spec derives in R121 from R100 and the pseudocode. -/
def Obligations.NumfdecIsNumdecOnItsField : Prop :=
  ∀ (s : State) (pad : Nat), pad = (4 - s.pos.toNat % 4) % 4 →
    (s.len.toNat < pad + 6 → exec .numfdec s = .next (failed 7 .malformedHeader .numRange s)) ∧
    (pad + 6 ≤ s.len.toNat → s.pos.toNat + pad + 4 > s.buflen.toNat →
      exec .numfdec s = .next (failed 7 .outOfBounds .none s)) ∧
    (pad + 6 ≤ s.len.toNat → s.pos.toNat + pad + 4 ≤ s.buflen.toNat →
      ∃ u, exec .numdec { s with
          pos := BitVec.ofNat 32 (s.pos.toNat + pad + 4), len := BitVec.ofNat 32 (s.len.toNat - pad - 4) } = .next u ∧
        (u.status.err = .none → exec .numfdec s = .next (succeeded 7
          { u.results with nLenword := BitVec.ofNat 32 (wordAt s (s.pos.toNat + pad)) } s)) ∧
        (u.status.err ≠ .none → exec .numfdec s = .next (failed 7 u.status.err u.status.sub s)))

/-- Log entry 6: `NUMDEC` does what the row of the header word it fetches does. -/
def Obligations.NumdecRunsHeaderRow : Prop :=
  ∀ (s : State) (h : Half), readU16LE s s.pos.toNat = .ok h → exec .numdec s = exec (decodeHeader h) s

/-- R100: `NUMDEC` is a function of `POS`, `LEN`, `BUFLEN` and the bytes of its range alone. -/
def Obligations.NumdecReadsOnlyItsRange : Prop :=
  ∀ s s' : State, s.pos = s'.pos → s.len = s'.len → s.buflen = s'.buflen →
    (∀ a, s.pos.toNat ≤ a → a < s.pos.toNat + s.len.toNat → byteAt s a = byteAt s' a) →
    ∃ t t', exec .numdec s = .next t ∧ exec .numdec s' = .next t' ∧ t.results = t'.results ∧ t.status = t'.status

/-! ### Rules over all instructions -/

/-- R46 and the frame of every instruction: the buffer, the operand registers and what the host has seen and has still to
do are as they were; only `STATUS` and the result registers change. -/
def Obligations.CommandsNeverWriteTheBuffer : Prop :=
  ∀ (i : Instr) (s t : State), exec i s = .next t →
    (∀ a, byteAt t a = byteAt s a) ∧ t = { s with status := t.status, results := t.results }

/-- R159: an error changes nothing but `STATUS`, and leaves all result registers 0; `lastop` is the command's code, `done`
is 1, and (`err`, `sub`) is one of the pairs of R156. -/
def Obligations.ErrorEntryChangesOnlyStatus : Prop :=
  (∀ (i : Instr) (s t : State), exec i s = .next t → t.status.err ≠ .none →
    t = failed t.status.lastop t.status.err t.status.sub s ∧ legalPair t.status.err t.status.sub = true) ∧
  ∀ (op : OpCode) (s t : State), exec (decodeCommand op) s = .next t → t.status.err ≠ .none →
    t = failed op t.status.err t.status.sub s

/-- R124, R140: every command of codes 1 to 7 completes from every state, with `done` 1 and `lastop` its code. -/
def Obligations.EveryCommandCompletes : Prop :=
  ∀ (s : State) (op : OpCode), 1 ≤ op.toNat → op.toNat ≤ 7 →
    ∃ t, exec (decodeCommand op) s = .next t ∧ t.status.done = true ∧ t.status.lastop = op

/-- R157, which the spec derives from the command rules: the pairs (`err`, `sub`) each command can end in, exactly. -/
def Obligations.CommandOutcomeTable : Prop :=
  ∀ (i : Instr) (pairs : List (ErrCode × SubCause)),
    (i, pairs) ∈
      [(Instr.eofflen, [(ErrCode.none, SubCause.none)]),
       (.ehasoff, [(.none, .none)]),
       (.etype, [(.none, .none), (.malformedHeader, .entryTag)]),
       (.edec, [(.none, .none), (.malformedHeader, .entryTag)]),
       (.eload, [(.none, .none), (.outOfBounds, .none), (.malformedHeader, .entryTag)]),
       (.numdec, [(.none, .none), (.outOfBounds, .none), (.malformedHeader, .numSpecial), (.malformedHeader, .numRange),
         (.unsupportedFeature, .numLong)]),
       (.numfdec, [(.none, .none), (.outOfBounds, .none), (.malformedHeader, .numSpecial),
         (.malformedHeader, .numRange), (.unsupportedFeature, .numLong)])] →
    ∀ e c, (e, c) ∈ pairs ↔ ∃ s t, exec i s = .next t ∧ t.status.err = e ∧ t.status.sub = c

/-- R3, which the spec derives from R140 and R21: an instruction's results and status are a function of the operand
registers and the buffer alone, and issuing it twice leaves what issuing it once left. -/
def Obligations.CommandsArePureAndIdempotent : Prop :=
  (∀ (i : Instr) (s s' t t' : State), SameInputs s s' → exec i s = .next t → exec i s' = .next t' →
    t.results = t'.results ∧ t.status = t'.status) ∧
  ∀ (i : Instr) (s t : State), exec i s = .next t → exec i t = .next t

/-- R155: NotYetParsed, with `done` 0, is the state after reset and stays until a command is issued; no command raises it,
and once a command has completed only a reset brings it back (the spec derives this last part from R140). -/
def Obligations.NotYetParsedOnlyFromReset : Prop :=
  (State.reset.status.err = .notYetParsed ∧ State.reset.status.done = false) ∧
  (∀ s : State, s.status.err = .notYetParsed → s.status.done = false →
    (∀ v, s.pending.head? ≠ some (.writeReg 0 v)) →
    ∃ t, step s = .next t ∧ t.status.err = .notYetParsed ∧ t.status.done = false) ∧
  (∀ (i : Instr) (s t : State), exec i s = .next t → t.status.err ≠ .notYetParsed ∧ t.status.done = true) ∧
  ∀ s t : State, s.status.err ≠ .notYetParsed → s.status.done = true → s.pending.head? ≠ some .reset →
    step s = .next t → t.status.err ≠ .notYetParsed ∧ t.status.done = true

/-! ### Invariants every step keeps -/

/-- The buffer's bytes stay in canonical form (20_memory.md section 1; the form is the model's). -/
def Obligations.StepKeepsMemoryCanonical : Prop :=
  ∀ s t : State, Memory.wf s.mem = true → step s = .next t → Memory.wf t.mem = true

/-- R13, R156: `STATUS` stays one of the words the block can show. -/
def Obligations.StepKeepsStatusLegal : Prop :=
  ∀ s t : State, StatusLegal s → step s = .next t → StatusLegal t

/-- R21, R184: the result registers stay those of the last command. -/
def Obligations.StepKeepsResultsOfLastCommand : Prop :=
  ∀ s t : State, ResultsOfLastCommand s → step s = .next t → ResultsOfLastCommand t

/-- R82, R93: after a successful `EDEC` or `ELOAD` the entry fields make up the word, until the next command. -/
def Obligations.StepKeepsEntryFields : Prop :=
  ∀ s t : State, EntryFieldsMakeWord s → step s = .next t → EntryFieldsMakeWord t

/-- R108 to R112, R115 to R117: the numeric result registers stay consistent with each other: the integer view exact, the
floating view the finite correctly rounded quotient. -/
def Obligations.StepKeepsNumericConsistent : Prop :=
  ∀ s t : State, NumericConsistent s.results → step s = .next t → NumericConsistent t.results

/-- R20: the reset state meets every invariant. -/
def Obligations.ResetStateIsSafe : Prop := SafeState State.reset
end

