-- ==== Sys2Proof/Laws/Binary64.lean ====
section
/-!
SUPPORT. The pieces of `rne64` (R112): rounding to an integer, scaling by a power of two, and the exponent.
-/

namespace Sys2Proof.Machine

/-! ### Rounding to an integer -/

/-- `roundHalfEven` is within half a unit (R112). -/
theorem roundHalfEven_spec (n : Nat) {d : Nat} (hd : 0 < d) :
    2 * (roundHalfEven n d * d) ≤ 2 * n + d ∧ 2 * n ≤ 2 * (roundHalfEven n d * d) + d := by
  have hdm := Nat.div_add_mod n d
  have hlt := Nat.mod_lt n hd
  have hc : d * (n / d) = n / d * d := Nat.mul_comm _ _
  unfold roundHalfEven
  split_ifs with h1 h2
  · omega
  · rw [Nat.add_mul]; omega
  · have h01 : n / d % 2 = 0 ∨ n / d % 2 = 1 := by omega
    rcases h01 with h | h <;> rw [h, Nat.add_mul] <;> omega

/-- At a tie `roundHalfEven` is even (R112). -/
theorem roundHalfEven_tie (n : Nat) {d : Nat} (h : 2 * (n % d) = d) : roundHalfEven n d % 2 = 0 := by
  unfold roundHalfEven
  rw [if_neg (by omega), if_neg (by omega)]
  omega

/-! ### Scaling and the exponent -/

/-- The scaled fraction is the fraction over `2^e`. -/
theorem scaled_div (n d : Nat) (e : Int) :
    (scaledNum n e : ℚ) / (scaledDen d e : ℚ) = (n : ℚ) / d / (2 : ℚ) ^ e := by
  have h2 : (2 : ℚ) ≠ 0 := by norm_num
  have hs : (2 : ℚ) ^ (e.toNat : ℤ) = (2 : ℚ) ^ e * (2 : ℚ) ^ ((-e).toNat : ℤ) := by
    rw [← zpow_add₀ h2]
    congr 1
    omega
  simp only [scaledNum, scaledDen, Nat.cast_mul, Nat.cast_pow, Nat.cast_ofNat]
  rw [← zpow_natCast (2 : ℚ) e.toNat, ← zpow_natCast (2 : ℚ) (-e).toNat, hs]
  have h3 : (2 : ℚ) ^ ((-e).toNat : ℤ) ≠ 0 := zpow_ne_zero _ h2
  by_cases hd : (d : ℚ) = 0
  · simp [hd]
  · field_simp

/-- The scaled denominator is positive. -/
theorem scaledDen_pos {d : Nat} (hd : 0 < d) (e : Int) : 0 < scaledDen d e :=
  Nat.mul_pos hd (Nat.pow_pos (by norm_num))

/-- The comparison of `floorLog2` is `2^e <= n / d`. -/
theorem scaled_le_iff (n : Nat) {d : Nat} (hd : 0 < d) (e : Int) :
    scaledDen d e ≤ scaledNum n e ↔ (2 : ℚ) ^ e ≤ (n : ℚ) / d := by
  have hp : (0 : ℚ) < (2 : ℚ) ^ e := zpow_pos (by norm_num) e
  have hs : (0 : ℚ) < (scaledDen d e : ℚ) := by exact_mod_cast scaledDen_pos hd e
  rw [← one_le_div hp, ← scaled_div, one_le_div hs]
  exact_mod_cast Iff.rfl

/-- `floorLog2` is the floor of the binary logarithm: `2^e <= n / d < 2^(e+1)` (R112). -/
theorem floorLog2_spec {n d : Nat} (hn : 0 < n) (hd : 0 < d) :
    (2 : ℚ) ^ floorLog2 n d ≤ (n : ℚ) / d ∧ (n : ℚ) / d < (2 : ℚ) ^ (floorLog2 n d + 1) := by
  have h2 : (2 : ℚ) ≠ 0 := by norm_num
  have hdq : (0 : ℚ) < (d : ℚ) := by exact_mod_cast hd
  have hn1 : (2 : ℚ) ^ (n.log2 : ℤ) ≤ n := by
    rw [zpow_natCast]
    exact_mod_cast Nat.log2_self_le hn.ne'
  have hn2 : (n : ℚ) < (2 : ℚ) ^ ((n.log2 : ℤ) + 1) := by
    have : n < 2 ^ (n.log2 + 1) := Nat.lt_log2_self
    exact_mod_cast this
  have hd1 : (2 : ℚ) ^ (d.log2 : ℤ) ≤ d := by
    rw [zpow_natCast]
    exact_mod_cast Nat.log2_self_le hd.ne'
  have hd2 : (d : ℚ) < (2 : ℚ) ^ ((d.log2 : ℤ) + 1) := by
    have : d < 2 ^ (d.log2 + 1) := Nat.lt_log2_self
    exact_mod_cast this
  have hpos : ∀ k : ℤ, (0 : ℚ) < (2 : ℚ) ^ k := fun k => zpow_pos (by norm_num) k
  have hlow : (2 : ℚ) ^ ((n.log2 : ℤ) - d.log2 - 1) ≤ (n : ℚ) / d := by
    rw [le_div_iff₀ hdq]
    calc (2 : ℚ) ^ ((n.log2 : ℤ) - d.log2 - 1) * d
        ≤ (2 : ℚ) ^ ((n.log2 : ℤ) - d.log2 - 1) * (2 : ℚ) ^ ((d.log2 : ℤ) + 1) :=
          mul_le_mul_of_nonneg_left hd2.le (hpos _).le
      _ = (2 : ℚ) ^ (n.log2 : ℤ) := by rw [← zpow_add₀ h2]; congr 1; ring
      _ ≤ n := hn1
  have hhigh : (n : ℚ) / d < (2 : ℚ) ^ ((n.log2 : ℤ) - d.log2 + 1) := by
    rw [div_lt_iff₀ hdq]
    calc (n : ℚ) < (2 : ℚ) ^ ((n.log2 : ℤ) + 1) := hn2
      _ = (2 : ℚ) ^ ((n.log2 : ℤ) - d.log2 + 1) * (2 : ℚ) ^ (d.log2 : ℤ) := by
          rw [← zpow_add₀ h2]; congr 1; ring
      _ ≤ (2 : ℚ) ^ ((n.log2 : ℤ) - d.log2 + 1) * d := mul_le_mul_of_nonneg_left hd1 (hpos _).le
  unfold floorLog2
  simp only
  split_ifs with h
  · exact ⟨(scaled_le_iff n hd _).mp h, hhigh⟩
  · rw [scaled_le_iff n hd, not_le] at h
    exact ⟨hlow, by rwa [sub_add_cancel]⟩

end Sys2Proof.Machine
end

