-- ==== Sys2Proof/Laws/Bits.lean ====
section
/-!
SUPPORT. The words and their fields as numbers.
-/

namespace Sys2Proof

/-- Concatenation as a number. -/
theorem append_toNat {v w : Nat} (a : BitVec v) (b : BitVec w) : (a ++ b).toNat = a.toNat * 2 ^ w + b.toNat := by
  rw [BitVec.toNat_append, ← Nat.shiftLeft_add_eq_or_of_lt b.isLt, Nat.shiftLeft_eq]

/-- A field as a number. -/
theorem extract_toNat {w : Nat} (lo n : Nat) (a : BitVec w) :
    (a.extractLsb' lo n).toNat = a.toNat / 2 ^ lo % 2 ^ n := by
  rw [BitVec.extractLsb'_toNat, Nat.shiftRight_eq_div_pow]

/-- An entry word as a number (R51). -/
theorem entryWord_toNat (t : BitVec 3) (h : BitVec 1) (o : BitVec 28) :
    (entryWord t h o).toNat = h.toNat * 2 ^ 31 + t.toNat * 2 ^ 28 + o.toNat := by
  simp only [entryWord, append_toNat]
  omega

/-- A header word as a number (R55). -/
theorem headerWord_toNat (v : BitVec 2) (r : BitVec 14) : (headerWord v r).toNat = v.toNat * 2 ^ 14 + r.toNat :=
  append_toNat v r

/-- A Short header word as a number (R56). -/
theorem shortHeaderWord_toNat (s : BitVec 1) (d : BitVec 6) (w : BitVec 7) :
    (shortHeaderWord s d w).toNat = 2 * 2 ^ 14 + s.toNat * 2 ^ 13 + d.toNat * 2 ^ 7 + w.toNat := by
  simp only [shortHeaderWord, headerWord_toNat, append_toNat, Config.ntShort]
  have : (0b10 : BitVec 2).toNat = 2 := rfl
  omega

/-- The fields of an assembled entry word (R51). -/
@[simp] theorem entryTag_entryWord (t : BitVec 3) (h : BitVec 1) (o : BitVec 28) :
    entryTag (entryWord t h o) = t := by
  apply BitVec.eq_of_toNat_eq
  have := t.isLt
  have := o.isLt
  simp only [entryTag, extract_toNat, entryWord_toNat]
  omega

@[simp] theorem entryHasoff_entryWord (t : BitVec 3) (h : BitVec 1) (o : BitVec 28) :
    entryHasoff (entryWord t h o) = h := by
  apply BitVec.eq_of_toNat_eq
  have := t.isLt
  have := o.isLt
  have := h.isLt
  simp only [entryHasoff, extract_toNat, entryWord_toNat]
  omega

@[simp] theorem entryOfflen_entryWord (t : BitVec 3) (h : BitVec 1) (o : BitVec 28) :
    entryOfflen (entryWord t h o) = o := by
  apply BitVec.eq_of_toNat_eq
  have := o.isLt
  simp only [entryOfflen, extract_toNat, entryWord_toNat]
  omega

/-- The three fields make up the word (R93). -/
theorem entryWord_fields (e : Word) : entryWord (entryTag e) (entryHasoff e) (entryOfflen e) = e := by
  apply BitVec.eq_of_toNat_eq
  have := e.isLt
  simp only [entryWord_toNat, entryTag, entryHasoff, entryOfflen, extract_toNat]
  omega

/-- The fields of an assembled header word (R55). -/
@[simp] theorem headerVariant_headerWord (v : BitVec 2) (r : BitVec 14) : headerVariant (headerWord v r) = v := by
  apply BitVec.eq_of_toNat_eq
  have := v.isLt
  have := r.isLt
  simp only [headerVariant, extract_toNat, headerWord_toNat]
  omega

@[simp] theorem headerRest_headerWord (v : BitVec 2) (r : BitVec 14) : headerRest (headerWord v r) = r := by
  apply BitVec.eq_of_toNat_eq
  have := r.isLt
  simp only [headerRest, extract_toNat, headerWord_toNat]
  omega

/-- Variant and rest make up the header word (R55). -/
theorem headerWord_fields (h : Half) : headerWord (headerVariant h) (headerRest h) = h := by
  apply BitVec.eq_of_toNat_eq
  have := h.isLt
  simp only [headerWord_toNat, headerVariant, headerRest, extract_toNat]
  omega

/-- The fields of an assembled Short header word (R56). -/
@[simp] theorem headerVariant_short (s : BitVec 1) (d : BitVec 6) (w : BitVec 7) :
    headerVariant (shortHeaderWord s d w) = Config.ntShort := headerVariant_headerWord _ _

@[simp] theorem headerSign_short (s : BitVec 1) (d : BitVec 6) (w : BitVec 7) :
    headerSign (shortHeaderWord s d w) = s := by
  apply BitVec.eq_of_toNat_eq
  have := s.isLt
  have := d.isLt
  have := w.isLt
  simp only [headerSign, extract_toNat, shortHeaderWord_toNat]
  omega

@[simp] theorem headerDscale_short (s : BitVec 1) (d : BitVec 6) (w : BitVec 7) :
    headerDscale (shortHeaderWord s d w) = d := by
  apply BitVec.eq_of_toNat_eq
  have := s.isLt
  have := d.isLt
  have := w.isLt
  simp only [headerDscale, extract_toNat, shortHeaderWord_toNat]
  omega

@[simp] theorem headerWeight_short (s : BitVec 1) (d : BitVec 6) (w : BitVec 7) :
    headerWeight (shortHeaderWord s d w) = w := by
  apply BitVec.eq_of_toNat_eq
  have := w.isLt
  simp only [headerWeight, extract_toNat, shortHeaderWord_toNat]
  omega

/-- A Short header word is made up of its fields (R56). -/
theorem shortHeaderWord_fields {h : Half} (hv : headerVariant h = Config.ntShort) :
    shortHeaderWord (headerSign h) (headerDscale h) (headerWeight h) = h := by
  apply BitVec.eq_of_toNat_eq
  have hlt := h.isLt
  have hv' := congrArg BitVec.toNat hv
  simp only [headerVariant, extract_toNat] at hv'
  have h2 : Config.ntShort.toNat = 2 := rfl
  rw [h2] at hv'
  simp only [shortHeaderWord_toNat, headerSign, headerDscale, headerWeight, extract_toNat]
  omega

end Sys2Proof
end

