-- ==== Sys2Proof/Laws/Memory.lean ====
section
/-!
SUPPORT. The buffer: what a read gives after a write, that every operation keeps the canonical form, and what the block's
reads answer.
-/

namespace Sys2Proof.Machine

/-! ### Canonical form -/

/-- The form from a lower bound implies it from any smaller one. -/
theorem Memory.wfFrom_mono {lo lo' : Nat} (h : lo' ≤ lo) :
    ∀ {m : Memory}, Memory.wfFrom lo m = true → Memory.wfFrom lo' m = true
  | [], _ => rfl
  | (k, v) :: m, hm => by
    simp only [Memory.wfFrom, Bool.and_eq_true, decide_eq_true_eq] at hm ⊢
    exact ⟨⟨h.trans hm.1.1, hm.1.2⟩, hm.2⟩

theorem Memory.wfFrom_consCell {lo a : Nat} (v : Byte) {m : Memory} (ha : lo ≤ a)
    (hm : Memory.wfFrom (a + 1) m = true) : Memory.wfFrom lo (Memory.consCell a v m) = true := by
  unfold Memory.consCell
  split_ifs with hv
  · exact Memory.wfFrom_mono (by omega) hm
  · simp [Memory.wfFrom, ha, hv, hm]

theorem Memory.wfFrom_write (a : Nat) (v : Byte) :
    ∀ {m : Memory} {lo : Nat}, lo ≤ a → Memory.wfFrom lo m = true →
      Memory.wfFrom lo (Memory.write m a v) = true
  | [], lo, ha, _ => Memory.wfFrom_consCell v ha rfl
  | (k, w) :: m, lo, ha, hm => by
    have hm' := hm
    simp only [Memory.wfFrom, Bool.and_eq_true, decide_eq_true_eq] at hm'
    unfold Memory.write
    split_ifs with h1 h2
    · refine Memory.wfFrom_consCell v ha ?_
      simp only [Memory.wfFrom, Bool.and_eq_true, decide_eq_true_eq]
      exact ⟨⟨h1, hm'.1.2⟩, hm'.2⟩
    · subst h2
      exact Memory.wfFrom_consCell v ha hm'.2
    · simp only [Memory.wfFrom, Bool.and_eq_true, decide_eq_true_eq]
      exact ⟨⟨hm'.1.1, hm'.1.2⟩, Memory.wfFrom_write a v (by omega) hm'.2⟩

/-- A write keeps the canonical form. -/
theorem Memory.wf_write {m : Memory} (a : Nat) (v : Byte) (hm : Memory.wf m = true) :
    Memory.wf (Memory.write m a v) = true :=
  Memory.wfFrom_write a v (Nat.zero_le a) hm

/-- Writing many bytes keeps the canonical form. -/
theorem Memory.wf_writeBytes : ∀ (bs : List Byte) (m : Memory) (a : Nat), Memory.wf m = true →
    Memory.wf (Memory.writeBytes m a bs) = true
  | [], _, _, hm => hm
  | b :: bs, _, a, hm => Memory.wf_writeBytes bs _ _ (Memory.wf_write a b hm)

/-! ### Read after write -/

theorem Memory.read_of_lt {a : Nat} :
    ∀ {m : Memory} {lo : Nat}, a < lo → Memory.wfFrom lo m = true → Memory.read m a = Config.unlistedByte
  | [], _, _, _ => rfl
  | (k, v) :: m, lo, ha, hm => by
    simp only [Memory.wfFrom, Bool.and_eq_true, decide_eq_true_eq] at hm
    have hk : k ≠ a := by omega
    simp only [Memory.read, hk, if_false]
    exact Memory.read_of_lt (by omega) hm.2

theorem Memory.read_consCell_same {a : Nat} (v : Byte) {m : Memory} (hm : Memory.wfFrom (a + 1) m = true) :
    Memory.read (Memory.consCell a v m) a = v := by
  unfold Memory.consCell
  split_ifs with hv
  · rw [Memory.read_of_lt (Nat.lt_succ_self a) hm, hv]
  · simp [Memory.read]

theorem Memory.read_consCell_other {a b : Nat} (v : Byte) (m : Memory) (h : b ≠ a) :
    Memory.read (Memory.consCell a v m) b = Memory.read m b := by
  unfold Memory.consCell
  split_ifs
  · rfl
  · simp [Memory.read, h.symm]

theorem Memory.read_write_same_from (a : Nat) (v : Byte) :
    ∀ {m : Memory} {lo : Nat}, Memory.wfFrom lo m = true → Memory.read (Memory.write m a v) a = v
  | [], _, _ => Memory.read_consCell_same v rfl
  | (k, w) :: m, lo, hm => by
    have hm' := hm
    simp only [Memory.wfFrom, Bool.and_eq_true, decide_eq_true_eq] at hm'
    unfold Memory.write
    split_ifs with h1 h2
    · refine Memory.read_consCell_same v ?_
      simp only [Memory.wfFrom, Bool.and_eq_true, decide_eq_true_eq]
      exact ⟨⟨h1, hm'.1.2⟩, hm'.2⟩
    · subst h2
      exact Memory.read_consCell_same v hm'.2
    · have hk : k ≠ a := fun h => h2 h.symm
      simp only [Memory.read, hk, if_false]
      exact Memory.read_write_same_from a v hm'.2

/-- A read after a write to the same offset gives the byte written. -/
theorem Memory.read_write_same {m : Memory} (a : Nat) (v : Byte) (hm : Memory.wf m = true) :
    Memory.read (Memory.write m a v) a = v :=
  Memory.read_write_same_from a v hm

/-- A write leaves every other offset as it was. -/
theorem Memory.read_write_other {a b : Nat} (v : Byte) (h : b ≠ a) :
    ∀ (m : Memory), Memory.read (Memory.write m a v) b = Memory.read m b
  | [] => Memory.read_consCell_other v [] h
  | (k, w) :: m => by
    unfold Memory.write
    split_ifs with h1 h2
    · exact Memory.read_consCell_other v _ h
    · subst h2
      rw [Memory.read_consCell_other v m h]
      simp [Memory.read, h.symm]
    · simp only [Memory.read]
      rw [Memory.read_write_other v h m]

/-- What the buffer holds after many bytes are written: they, and elsewhere what it held. -/
theorem Memory.read_writeBytes : ∀ (bs : List Byte) (m : Memory) (a b : Nat), Memory.wf m = true →
    Memory.read (Memory.writeBytes m a bs) b =
      if a ≤ b ∧ b < a + bs.length then bs.getD (b - a) 0 else Memory.read m b
  | [], _, a, b, _ => by
    rw [if_neg (by simp only [List.length_nil]; omega)]
    rfl
  | v :: bs, m, a, b, hm => by
    rw [Memory.writeBytes, Memory.read_writeBytes bs _ _ _ (Memory.wf_write a v hm)]
    simp only [List.length_cons]
    rcases Nat.lt_trichotomy b a with hb | hb | hb
    · rw [if_neg (by omega), if_neg (by omega), Memory.read_write_other v (by omega)]
    · subst hb
      rw [if_neg (by omega), if_pos (by omega), Memory.read_write_same b v hm]
      simp
    · by_cases hlt : b < a + 1 + bs.length
      · rw [if_pos (by omega), if_pos (by omega)]
        obtain ⟨k, rfl⟩ : ∃ k, b = a + 1 + k := ⟨b - (a + 1), by omega⟩
        have h1 : a + 1 + k - (a + 1) = k := by omega
        have h2 : a + 1 + k - a = k + 1 := by omega
        simp [h1, h2]
      · rw [if_neg (by omega), if_neg (by omega), Memory.read_write_other v (by omega)]

/-! ### The block's reads -/

/-- `leNat` of two bytes (R32). -/
theorem leNat_two (b0 b1 : Byte) : leNat [b0, b1] = b0.toNat + 256 * b1.toNat := by
  simp [leNat]

/-- `leNat` of four bytes (R33). -/
theorem leNat_four (b0 b1 b2 b3 : Byte) :
    leNat [b0, b1, b2, b3] = b0.toNat + 2 ^ 8 * b1.toNat + 2 ^ 16 * b2.toNat + 2 ^ 24 * b3.toNat := by
  simp only [leNat]
  omega

/-- `readU16LE` answers the word exactly when it fits the buffer, and OutOfBounds otherwise (R31, R32). -/
theorem readU16LE_eq (s : State) (a : Nat) :
    readU16LE s a =
      if a + 2 > s.buflen.toNat then .error .outOfBounds
      else .ok (BitVec.ofNat 16 ((Memory.read s.mem a).toNat + 256 * (Memory.read s.mem (a + 1)).toNat)) := by
  unfold readU16LE memRead
  split_ifs with h
  · rfl
  · simp only [Memory.bytesAt, leNat_two]

/-- `readU32LE` answers the word exactly when it fits the buffer, and OutOfBounds otherwise (R31, R33). -/
theorem readU32LE_eq (s : State) (a : Nat) :
    readU32LE s a =
      if a + 4 > s.buflen.toNat then .error .outOfBounds
      else .ok (BitVec.ofNat 32 ((Memory.read s.mem a).toNat + 2 ^ 8 * (Memory.read s.mem (a + 1)).toNat +
        2 ^ 16 * (Memory.read s.mem (a + 2)).toNat + 2 ^ 24 * (Memory.read s.mem (a + 3)).toNat)) := by
  unfold readU32LE memRead
  split_ifs with h
  · rfl
  · simp only [Memory.bytesAt, leNat_four]

end Sys2Proof.Machine
end

