-- ==== Sys2Proof/Laws/Numeric.lean ====
section
/-!
SUPPORT. The Numeric Decoder: what the accumulation answers and when it fails (R107), the bound of the coefficient
(R107).
-/

namespace Sys2Proof.Machine

/-- The accumulation reads digit by digit: with the range inside the buffer it answers, and otherwise it is OutOfBounds
(R107). The value is given by the recurrence `accNat`. -/
def accNat (m : Memory) : (k cur acc : Nat) → Nat
  | 0, _, acc => acc
  | k + 1, cur, acc =>
    accNat m k (cur + 2) (acc * 10000 + ((Memory.read m cur).toNat + 256 * (Memory.read m (cur + 1)).toNat))

theorem halfNat_lt (b0 b1 : Byte) : b0.toNat + 256 * b1.toNat < 2 ^ 16 := by
  have h0 := b0.isLt
  have h1 := b1.isLt
  omega

/-- The Short branch's digits are read exactly when the last one fits (R107). -/
theorem accumulate_eq (s : State) : ∀ (k cur acc : Nat),
    accumulate s k cur acc =
      if k = 0 ∨ cur + 2 * k ≤ s.buflen.toNat then .ok (accNat s.mem k cur acc) else .error .outOfBounds
  | 0, cur, acc => by simp [accumulate, accNat]
  | k + 1, cur, acc => by
    unfold accumulate
    rw [readU16LE_eq]
    by_cases h : cur + 2 > s.buflen.toNat
    · rw [if_pos h, if_neg (by omega)]
    · rw [if_neg h]
      simp only [accumulate_eq s k]
      rw [BitVec.toNat_ofNat, Nat.mod_eq_of_lt (halfNat_lt _ _)]
      by_cases h2 : cur + 2 * (k + 1) ≤ s.buflen.toNat
      · rw [if_pos (by omega), if_pos (by omega)]
        rfl
      · by_cases hk : k = 0
        · omega
        · rw [if_neg (by omega), if_neg (by omega)]

/-- The coefficient fits 16 bits a digit (R107). -/
theorem accNat_lt (m : Memory) : ∀ (k cur acc j : Nat), acc < 2 ^ (16 * j) →
    accNat m k cur acc < 2 ^ (16 * (j + k))
  | 0, _, _, _, h => h
  | k + 1, cur, acc, j, h => by
    unfold accNat
    have hd := halfNat_lt (Memory.read m cur) (Memory.read m (cur + 1))
    have hpow : 2 ^ (16 * (j + 1)) = 2 ^ (16 * j) * 2 ^ 16 := by rw [← pow_add]; congr 1
    have := accNat_lt m k (cur + 2)
      (acc * 10000 + ((Memory.read m cur).toNat + 256 * (Memory.read m (cur + 1)).toNat)) (j + 1)
      (by rw [hpow]; omega)
    have he : j + 1 + k = j + (k + 1) := by omega
    rwa [he] at this

end Sys2Proof.Machine
end

