-- ==== Sys2Proof/Laws/Outcomes.lean ====
section
/-!
SUPPORT. What each shared operation answers, said once in the terms of Safety: the two reads, the entry word's variant,
the three branches of the Numeric Decoder, and that a range's outcome depends on its own bytes alone.
-/

namespace Sys2Proof.Machine

open Sys2Proof.Safety

/-! ### Reads -/

theorem byteAt_lt (s : State) (a : Nat) : byteAt s a < 256 := (Memory.read s.mem a).isLt

theorem halfAt_lt (s : State) (a : Nat) : halfAt s a < 2 ^ 16 := by
  have := byteAt_lt s a
  have := byteAt_lt s (a + 1)
  unfold halfAt
  omega

theorem wordAt_lt (s : State) (a : Nat) : wordAt s a < 2 ^ 32 := by
  have := byteAt_lt s a
  have := byteAt_lt s (a + 1)
  have := byteAt_lt s (a + 2)
  have := byteAt_lt s (a + 3)
  unfold wordAt
  omega

/-- A 16-bit read inside the buffer (R32). -/
theorem readU16LE_ok {s : State} {a : Nat} (h : a + 2 ≤ s.buflen.toNat) :
    readU16LE s a = .ok (BitVec.ofNat 16 (halfAt s a)) := by
  rw [readU16LE_eq, if_neg (by omega)]
  rfl

/-- A 32-bit read inside the buffer (R33). -/
theorem readU32LE_ok {s : State} {a : Nat} (h : a + 4 ≤ s.buflen.toNat) :
    readU32LE s a = .ok (BitVec.ofNat 32 (wordAt s a)) := by
  rw [readU32LE_eq, if_neg (by omega)]
  rfl

theorem read_eq_of_byteAt {s s' : State} {a : Nat} (h : byteAt s a = byteAt s' a) :
    Memory.read s.mem a = Memory.read s'.mem a := BitVec.eq_of_toNat_eq h

/-! ### The Entry Codec -/

/-- The variant of a tag: the tag itself for 0 to 5, the error for 6 and 7 (R52, R53). -/
theorem typeOfTag_cases (t : BitVec 3) :
    (t.toNat ≤ 5 ∧ typeOfTag t = .ok t) ∨ (6 ≤ t.toNat ∧ typeOfTag t = .error .entryTag) := by
  revert t
  decide

/-- The whole entry word's outcome (R83). -/
theorem entryOutcome_cases (e : Word) :
    ((entryTag e).toNat ≤ 5 ∧ entryOutcome e = .ok (entryResults e (entryTag e))) ∨
    (6 ≤ (entryTag e).toNat ∧ entryOutcome e = .error .entryTag) := by
  unfold entryOutcome
  rcases typeOfTag_cases (entryTag e) with ⟨h, ht⟩ | ⟨h, ht⟩ <;> rw [ht]
  · exact .inl ⟨h, rfl⟩
  · exact .inr ⟨h, rfl⟩

/-! ### The branches of the Numeric Decoder -/

theorem ofNat16_toNat {h : Nat} (hh : h < 2 ^ 16) : (BitVec.ofNat 16 h).toNat = h := by
  rw [BitVec.toNat_ofNat, Nat.mod_eq_of_lt hh]

/-- The variant of a header word given as a number (R55). -/
theorem headerVariant_iff {h : Nat} (hh : h < 2 ^ 16) (v : BitVec 2) :
    headerVariant (BitVec.ofNat 16 h) = v ↔ h / 2 ^ 14 = v.toNat := by
  rw [← BitVec.toNat_inj, headerVariant, extract_toNat, ofNat16_toNat hh]
  omega

/-- Long headers (R104, R119, R120). -/
theorem headerBranch_long {s : State} {hp n h : Nat} (hh : h < 2 ^ 16) (hv : h / 2 ^ 14 = 0 ∨ h / 2 ^ 14 = 1) :
    headerBranch s hp n (BitVec.ofNat 16 h) = .error .numLong := by
  unfold headerBranch longBranch
  rw [if_neg, if_neg] <;> rw [headerVariant_iff hh] <;> simp [Config.ntShort, Config.ntSpecial] <;> omega

/-- Short headers (R104). -/
theorem headerBranch_short {s : State} {hp n h : Nat} (hh : h < 2 ^ 16) (hv : h / 2 ^ 14 = 2) :
    headerBranch s hp n (BitVec.ofNat 16 h) = shortBranch s hp n (BitVec.ofNat 16 h) := by
  unfold headerBranch
  rw [if_pos]
  rw [headerVariant_iff hh, hv]
  rfl

/-- Special headers (R104). -/
theorem headerBranch_special {s : State} {hp n h : Nat} (hh : h < 2 ^ 16) (hv : h / 2 ^ 14 = 3) :
    headerBranch s hp n (BitVec.ofNat 16 h) = specialBranch (BitVec.ofNat 16 h) := by
  unfold headerBranch
  rw [if_neg, if_pos] <;> rw [headerVariant_iff hh] <;> simp [Config.ntShort, Config.ntSpecial] <;> omega

/-- The recurrence of R107 in closed form. -/
theorem accNat_closed (s : State) (k : Nat) : ∀ cur acc : Nat,
    accNat s.mem k cur acc =
      acc * 10000 ^ k + ∑ i ∈ Finset.range k, halfAt s (cur + 2 * i) * 10000 ^ (k - 1 - i) := by
  induction k with
  | zero => intro cur acc; simp [accNat]
  | succ k ih =>
    intro cur acc
    rw [accNat, ih, Finset.sum_range_succ']
    have hs : (∑ i ∈ Finset.range k, halfAt s (cur + 2 * (i + 1)) * 10000 ^ (k + 1 - 1 - (i + 1))) =
        ∑ i ∈ Finset.range k, halfAt s (cur + 2 + 2 * i) * 10000 ^ (k - 1 - i) := by
      refine Finset.sum_congr rfl fun i _ => ?_
      congr 2 <;> omega
    rw [hs]
    simp only [halfAt, byteAt]
    simp
    ring

/-- The accumulation from the first digit is the coefficient (R107). -/
theorem accNat_coefficient (s : State) (hp k : Nat) : accNat s.mem k (hp + 2) 0 = coefficient s hp k := by
  rw [accNat_closed]
  simp [coefficient, digitAt]

/-- An odd remainder (R106). -/
theorem shortBranch_odd {s : State} {hp n : Nat} (h : Half) (hn : (n - 2) % 2 = 1) :
    shortBranch s hp n h = .error .numRange := by
  unfold shortBranch
  rw [if_pos hn]

/-- Digits past the buffer (R107). -/
theorem shortBranch_outOfBounds {s : State} {hp n k : Nat} (h : Half) (h0 : hp + 2 ≤ s.buflen.toNat)
    (hn : n = 2 + 2 * k) (hb : hp + n > s.buflen.toNat) : shortBranch s hp n h = .error .outOfBounds := by
  unfold shortBranch
  rw [if_neg (by omega), accumulate_eq, if_neg (by omega)]

/-- Digits inside the buffer (R107). -/
theorem shortBranch_ok {s : State} {hp n k : Nat} (h : Half) (hn : n = 2 + 2 * k) (hb : hp + n ≤ s.buflen.toNat) :
    shortBranch s hp n h = .ok (shortResults h k (coefficient s hp k)) := by
  have hk : (n - 2) / 2 = k := by omega
  unfold shortBranch
  rw [if_neg (by omega), accumulate_eq, if_pos (by omega), hk, accNat_coefficient]

/-! ### Only the range is read -/

/-- The accumulation depends on the digits' bytes and `BUFLEN` alone. -/
theorem accumulate_congr {s s' : State} (hb : s.buflen = s'.buflen) (k : Nat) : ∀ cur acc : Nat,
    (∀ a, cur ≤ a → a < cur + 2 * k → byteAt s a = byteAt s' a) →
    accumulate s k cur acc = accumulate s' k cur acc := by
  induction k with
  | zero => intros; rfl
  | succ k ih =>
    intro cur acc h
    simp only [accumulate, readU16LE_eq, hb]
    rw [read_eq_of_byteAt (h cur (by omega) (by omega)), read_eq_of_byteAt (h (cur + 1) (by omega) (by omega))]
    split_ifs
    · rfl
    · exact ih _ _ fun a h1 h2 => h a (by omega) (by omega)

/-- The decoder's outcome depends on the range's bytes and `BUFLEN` alone (R100). -/
theorem numCore_congr {s s' : State} {hp n : Nat} (hb : s.buflen = s'.buflen)
    (h : ∀ a, hp ≤ a → a < hp + n → byteAt s a = byteAt s' a) : numCore s hp n = numCore s' hp n := by
  unfold numCore fetchHeader
  by_cases hn : n < 2
  · rw [if_pos hn, if_pos hn]
  · simp only [if_neg hn, readU16LE_eq, hb]
    rw [read_eq_of_byteAt (h hp (by omega) (by omega)), read_eq_of_byteAt (h (hp + 1) (by omega) (by omega))]
    by_cases hc : hp + 2 > s'.buflen.toNat
    · rw [if_pos hc]
    · simp only [if_neg hc]
      unfold headerBranch shortBranch
      rw [accumulate_congr hb _ _ _ fun a h1 h2 => h a (by omega) (by omega)]

end Sys2Proof.Machine
end

