-- ==== Sys2Proof/Laws/Patterns.lean ====
section
/-!
SUPPORT. The finite binary64 patterns as rationals (R112): the gap between neighbours, that patterns rise with their
values, and a test for the nearest pattern that looks at its two neighbours only.
-/

namespace Sys2Proof.Machine

open Sys2Proof.Safety

/-- The value of a pattern from its exponent field and fraction. -/
theorem binary64Value_eq (E f : Nat) (hf : f < 2 ^ 52) :
    binary64Value (E * 2 ^ 52 + f) =
      ((if E = 0 then 0 else 2 ^ 52) + f : ℕ) * (2 : ℚ) ^ ((max E 1 : ℕ) - 1075 : ℤ) := by
  unfold binary64Value
  rw [show (E * 2 ^ 52 + f) / 2 ^ 52 = E by omega, show (E * 2 ^ 52 + f) % 2 ^ 52 = f by omega]
  split_ifs with h
  · subst h
    rw [Nat.zero_add]
    rfl
  · rw [Nat.max_eq_left (by omega)]

/-- The next pattern is one unit in the last place away. -/
theorem binary64Value_succ (p : Nat) :
    binary64Value (p + 1) = binary64Value p + (2 : ℚ) ^ ((max (p / 2 ^ 52) 1 : ℕ) - 1075 : ℤ) := by
  obtain ⟨E, f, hf, rfl⟩ : ∃ E f, f < 2 ^ 52 ∧ p = E * 2 ^ 52 + f :=
    ⟨p / 2 ^ 52, p % 2 ^ 52, Nat.mod_lt _ (by norm_num), by omega⟩
  rw [show (E * 2 ^ 52 + f) / 2 ^ 52 = E by omega]
  by_cases hlast : f + 1 < 2 ^ 52
  · rw [add_assoc, binary64Value_eq E (f + 1) hlast, binary64Value_eq E f hf]
    push_cast
    ring
  · have hf' : f = 2 ^ 52 - 1 := by omega
    rw [show E * 2 ^ 52 + f + 1 = (E + 1) * 2 ^ 52 + 0 by omega, binary64Value_eq _ 0 (by norm_num),
      binary64Value_eq E f hf]
    subst hf'
    by_cases hE : E = 0
    · subst hE
      norm_num
      ring
    · rw [if_neg (by omega), if_neg hE, Nat.max_eq_left (by omega), Nat.max_eq_left (by omega),
        show ((E + 1 : ℕ) - 1075 : ℤ) = (E - 1075 : ℤ) + 1 by push_cast; ring, zpow_add₀ (by norm_num)]
      push_cast
      ring

theorem binary64Value_strictMono : StrictMono binary64Value :=
  strictMono_nat_of_lt_succ fun p => by
    have hp : (0 : ℚ) < (2 : ℚ) ^ ((max (p / 2 ^ 52) 1 : ℕ) - 1075 : ℤ) := zpow_pos (by norm_num) _
    rw [binary64Value_succ]
    linarith

/-- A pattern is nearest, ties to even, when it is so against its lower and its upper neighbour. -/
theorem isNearestEven_of {p : Nat} {q : ℚ} (hp : p < binary64Infinity)
    (hlo : p = 0 ∧ 0 ≤ q ∨ ∃ p0, p = p0 + 1 ∧
      (binary64Value p0 + binary64Value p < 2 * q ∨ (binary64Value p0 + binary64Value p = 2 * q ∧ p % 2 = 0)))
    (hhi : 2 * q < binary64Value p + binary64Value (p + 1) ∨
      (2 * q = binary64Value p + binary64Value (p + 1) ∧ p % 2 = 0)) : IsNearestEven p q := by
  refine ⟨hp, fun p' _ hne => ?_⟩
  rcases lt_or_gt_of_ne hne with hlt | hgt
  · rcases hlo with ⟨rfl, -⟩ | ⟨p0, rfl, h⟩
    · omega
    · have hm : binary64Value p' ≤ binary64Value p0 := binary64Value_strictMono.monotone (by omega)
      have hm2 := binary64Value_strictMono (Nat.lt_succ_self p0)
      have hq : binary64Value p' ≤ q := by rcases h with h | ⟨h, -⟩ <;> linarith
      rw [abs_of_nonpos (show binary64Value p' - q ≤ 0 by linarith)]
      rcases h with h | ⟨h, he⟩
      · left
        rw [abs_lt]
        constructor <;> linarith
      · by_cases hlt2 : |binary64Value (p0 + 1) - q| < -(binary64Value p' - q)
        · exact .inl hlt2
        · refine .inr ⟨le_antisymm ?_ (not_lt.mp hlt2), he⟩
          rw [abs_le]
          constructor <;> linarith
  · have hm : binary64Value (p + 1) ≤ binary64Value p' := binary64Value_strictMono.monotone (by omega)
    have hm2 := binary64Value_strictMono (Nat.lt_succ_self p)
    have hq : q ≤ binary64Value p' := by rcases hhi with h | ⟨h, -⟩ <;> linarith
    rw [abs_of_nonneg (show 0 ≤ binary64Value p' - q by linarith)]
    rcases hhi with h | ⟨h, he⟩
    · left
      rw [abs_lt]
      constructor <;> linarith
    · by_cases hlt2 : |binary64Value p - q| < binary64Value p' - q
      · exact .inl hlt2
      · refine .inr ⟨le_antisymm ?_ (not_lt.mp hlt2), he⟩
        rw [abs_le]
        constructor <;> linarith

end Sys2Proof.Machine
end

