-- ==== Sys2Proof/Laws/PerInstr.lean ====
section
/-!
SUPPORT. A family of statements about every instruction as syntax: its word fits its format's width and has the fixed
bits its row of the opcode table gives (R67).
-/

namespace Sys2Proof.Laws.FitsRow

/-- How many bits a word of a format has (R67). -/
def formatBits : Format → Nat
  | .cmd4 => 4
  | .numhdr16 => 16
  | .entry32 => 32

/-- The instruction's word fits its row of the table. -/
def Statement (i : Instr) : Prop :=
  encodedNat (encode i) < 2 ^ formatBits (tableRow i).format ∧
    matchesRow (encodedNat (encode i)) (tableRow i) = true

/-- The tag of an entry word is where the table says (R51). -/
theorem entryWord_tag (t : BitVec 3) (h : BitVec 1) (o : BitVec 28) :
    (entryWord t h o).toNat / 2 ^ 28 % 2 ^ 3 = t.toNat := by
  have ht := t.isLt
  have ho := o.isLt
  rw [entryWord_toNat]
  omega

/-- The variant of a header word is where the table says (R55). -/
theorem headerWord_variant (v : BitVec 2) (r : BitVec 14) : (headerWord v r).toNat / 2 ^ 14 % 2 ^ 2 = v.toNat := by
  have hv := v.isLt
  have hr := r.isLt
  rw [headerWord_toNat]
  omega

theorem of_entry (t : BitVec 3) (h : BitVec 1) (o : BitVec 28) (v : Nat) (hv : t.toNat = v) :
    (entryWord t h o).toNat < 2 ^ 32 ∧ matchesRow (entryWord t h o).toNat ⟨.entry32, 28, 3, v⟩ = true :=
  ⟨(entryWord t h o).isLt, by simpa [matchesRow, hv] using entryWord_tag t h o⟩

theorem of_header (t : BitVec 2) (r : BitVec 14) (v : Nat) (hv : t.toNat = v) :
    (headerWord t r).toNat < 2 ^ 16 ∧ matchesRow (headerWord t r).toNat ⟨.numhdr16, 14, 2, v⟩ = true :=
  ⟨(headerWord t r).isLt, by simpa [matchesRow, hv] using headerWord_variant t r⟩

theorem eofflen : Statement .eofflen := by unfold Statement; decide
theorem ehasoff : Statement .ehasoff := by unfold Statement; decide
theorem etype : Statement .etype := by unfold Statement; decide
theorem edec : Statement .edec := by unfold Statement; decide
theorem eload : Statement .eload := by unfold Statement; decide
theorem numdec : Statement .numdec := by unfold Statement; decide
theorem numfdec : Statement .numfdec := by unfold Statement; decide
theorem reservedZero : Statement .reservedZero := by unfold Statement; decide
theorem reservedHigh (low : BitVec 3) : Statement (.reservedHigh low) := by
  unfold Statement
  revert low
  decide
theorem entryString (h : BitVec 1) (o : BitVec 28) : Statement (.entryString h o) := of_entry _ h o 0 rfl
theorem entryNumeric (h : BitVec 1) (o : BitVec 28) : Statement (.entryNumeric h o) := of_entry _ h o 1 rfl
theorem entryBoolFalse (h : BitVec 1) (o : BitVec 28) : Statement (.entryBoolFalse h o) := of_entry _ h o 2 rfl
theorem entryBoolTrue (h : BitVec 1) (o : BitVec 28) : Statement (.entryBoolTrue h o) := of_entry _ h o 3 rfl
theorem entryNull (h : BitVec 1) (o : BitVec 28) : Statement (.entryNull h o) := of_entry _ h o 4 rfl
theorem entryContainer (h : BitVec 1) (o : BitVec 28) : Statement (.entryContainer h o) := of_entry _ h o 5 rfl
theorem entryReserved6 (h : BitVec 1) (o : BitVec 28) : Statement (.entryReserved6 h o) := of_entry _ h o 6 rfl
theorem entryReserved7 (h : BitVec 1) (o : BitVec 28) : Statement (.entryReserved7 h o) := of_entry _ h o 7 rfl
theorem numLongPos (x : BitVec 14) : Statement (.numLongPos x) := of_header _ x 0 rfl
theorem numLongNeg (x : BitVec 14) : Statement (.numLongNeg x) := of_header _ x 1 rfl
theorem numShort (s : BitVec 1) (d : BitVec 6) (w : BitVec 7) : Statement (.numShort s d w) := of_header _ _ 2 rfl
theorem numNan : Statement .numNan := by unfold Statement; decide
theorem numPinf : Statement .numPinf := by unfold Statement; decide
theorem numNinf : Statement .numNinf := by unfold Statement; decide
theorem numSpecialBad (b : BitVec 14) : Statement (.numSpecialBad b) := of_header _ b 3 rfl

end Sys2Proof.Laws.FitsRow
end

