-- ==== Sys2Proof/Laws/State.lean ====
section
/-!
SUPPORT. One lemma per field per update of State, so that no later proof unfolds a record update.
-/

namespace Sys2Proof.Machine

/-! ### `completeCommand` -/

@[simp] theorem completeCommand_buflen (op : OpCode) (r : Results) (s : State) :
    (completeCommand op r s).buflen = s.buflen := rfl
@[simp] theorem completeCommand_pos (op : OpCode) (r : Results) (s : State) :
    (completeCommand op r s).pos = s.pos := rfl
@[simp] theorem completeCommand_len (op : OpCode) (r : Results) (s : State) :
    (completeCommand op r s).len = s.len := rfl
@[simp] theorem completeCommand_eword (op : OpCode) (r : Results) (s : State) :
    (completeCommand op r s).eword = s.eword := rfl
@[simp] theorem completeCommand_status (op : OpCode) (r : Results) (s : State) :
    (completeCommand op r s).status = okStatus op := rfl
@[simp] theorem completeCommand_results (op : OpCode) (r : Results) (s : State) :
    (completeCommand op r s).results = r := rfl
@[simp] theorem completeCommand_mem (op : OpCode) (r : Results) (s : State) :
    (completeCommand op r s).mem = s.mem := rfl
@[simp] theorem completeCommand_pending (op : OpCode) (r : Results) (s : State) :
    (completeCommand op r s).pending = s.pending := rfl
@[simp] theorem completeCommand_seen (op : OpCode) (r : Results) (s : State) :
    (completeCommand op r s).seen = s.seen := rfl

/-! ### `raiseError` -/

@[simp] theorem raiseError_buflen (op : OpCode) (e : Raise) (s : State) :
    (raiseError op e s).buflen = s.buflen := rfl
@[simp] theorem raiseError_pos (op : OpCode) (e : Raise) (s : State) :
    (raiseError op e s).pos = s.pos := rfl
@[simp] theorem raiseError_len (op : OpCode) (e : Raise) (s : State) :
    (raiseError op e s).len = s.len := rfl
@[simp] theorem raiseError_eword (op : OpCode) (e : Raise) (s : State) :
    (raiseError op e s).eword = s.eword := rfl
@[simp] theorem raiseError_status (op : OpCode) (e : Raise) (s : State) :
    (raiseError op e s).status = errStatus op e := rfl
@[simp] theorem raiseError_results (op : OpCode) (e : Raise) (s : State) :
    (raiseError op e s).results = Results.cleared := rfl
@[simp] theorem raiseError_mem (op : OpCode) (e : Raise) (s : State) :
    (raiseError op e s).mem = s.mem := rfl
@[simp] theorem raiseError_pending (op : OpCode) (e : Raise) (s : State) :
    (raiseError op e s).pending = s.pending := rfl
@[simp] theorem raiseError_seen (op : OpCode) (e : Raise) (s : State) :
    (raiseError op e s).seen = s.seen := rfl

/-! ### `hostRead` -/

@[simp] theorem hostRead_buflen (reg : Nat) (s : State) :
    (hostRead reg s).buflen = s.buflen := rfl
@[simp] theorem hostRead_pos (reg : Nat) (s : State) :
    (hostRead reg s).pos = s.pos := rfl
@[simp] theorem hostRead_len (reg : Nat) (s : State) :
    (hostRead reg s).len = s.len := rfl
@[simp] theorem hostRead_eword (reg : Nat) (s : State) :
    (hostRead reg s).eword = s.eword := rfl
@[simp] theorem hostRead_status (reg : Nat) (s : State) :
    (hostRead reg s).status = s.status := rfl
@[simp] theorem hostRead_results (reg : Nat) (s : State) :
    (hostRead reg s).results = s.results := rfl
@[simp] theorem hostRead_mem (reg : Nat) (s : State) :
    (hostRead reg s).mem = s.mem := rfl
@[simp] theorem hostRead_pending (reg : Nat) (s : State) :
    (hostRead reg s).pending = s.pending := rfl
@[simp] theorem hostRead_seen (reg : Nat) (s : State) :
    (hostRead reg s).seen = s.seen ++ [regValue s reg] := rfl

/-! ### `withCommand` -/

@[simp] theorem withCommand_buflen (s : State) (op : Nat) :
    (s.withCommand op).buflen = s.buflen := rfl
@[simp] theorem withCommand_pos (s : State) (op : Nat) :
    (s.withCommand op).pos = s.pos := rfl
@[simp] theorem withCommand_len (s : State) (op : Nat) :
    (s.withCommand op).len = s.len := rfl
@[simp] theorem withCommand_eword (s : State) (op : Nat) :
    (s.withCommand op).eword = s.eword := rfl
@[simp] theorem withCommand_status (s : State) (op : Nat) :
    (s.withCommand op).status = s.status := rfl
@[simp] theorem withCommand_results (s : State) (op : Nat) :
    (s.withCommand op).results = s.results := rfl
@[simp] theorem withCommand_mem (s : State) (op : Nat) :
    (s.withCommand op).mem = s.mem := rfl
@[simp] theorem withCommand_pending (s : State) (op : Nat) :
    (s.withCommand op).pending = .writeReg Config.regCmd op :: s.pending := rfl
@[simp] theorem withCommand_seen (s : State) (op : Nat) :
    (s.withCommand op).seen = s.seen := rfl

/-! ### `resetEvent` -/

@[simp] theorem resetEvent_buflen (s : State) :
    (resetEvent s).buflen = 0 := rfl
@[simp] theorem resetEvent_pos (s : State) :
    (resetEvent s).pos = 0 := rfl
@[simp] theorem resetEvent_len (s : State) :
    (resetEvent s).len = 0 := rfl
@[simp] theorem resetEvent_eword (s : State) :
    (resetEvent s).eword = 0 := rfl
@[simp] theorem resetEvent_status (s : State) :
    (resetEvent s).status = Status.afterReset := rfl
@[simp] theorem resetEvent_results (s : State) :
    (resetEvent s).results = Results.cleared := rfl
@[simp] theorem resetEvent_mem (s : State) :
    (resetEvent s).mem = s.mem := rfl
@[simp] theorem resetEvent_pending (s : State) :
    (resetEvent s).pending = s.pending := rfl
@[simp] theorem resetEvent_seen (s : State) :
    (resetEvent s).seen = s.seen := rfl

/-! ### `State.reset` -/

@[simp] theorem reset_buflen : State.reset.buflen = 0 := rfl
@[simp] theorem reset_pos : State.reset.pos = 0 := rfl
@[simp] theorem reset_len : State.reset.len = 0 := rfl
@[simp] theorem reset_eword : State.reset.eword = 0 := rfl
@[simp] theorem reset_status : State.reset.status = Status.afterReset := rfl
@[simp] theorem reset_results : State.reset.results = Results.cleared := rfl
@[simp] theorem reset_mem : State.reset.mem = [] := rfl
@[simp] theorem reset_pending : State.reset.pending = [] := rfl
@[simp] theorem reset_seen : State.reset.seen = [] := rfl

/-! ### `issueCommand`: what every command leaves as it was -/

@[simp] theorem issueCommand_ok (op : OpCode) (r : Results) (s : State) :
    issueCommand op (.ok r) s = completeCommand op r s := rfl
@[simp] theorem issueCommand_error (op : OpCode) (e : Raise) (s : State) :
    issueCommand op (.error e) s = raiseError op e s := rfl
@[simp] theorem issueCommand_buflen (op : OpCode) (out : Except Raise Results) (s : State) :
    (issueCommand op out s).buflen = s.buflen := by cases out <;> rfl
@[simp] theorem issueCommand_pos (op : OpCode) (out : Except Raise Results) (s : State) :
    (issueCommand op out s).pos = s.pos := by cases out <;> rfl
@[simp] theorem issueCommand_len (op : OpCode) (out : Except Raise Results) (s : State) :
    (issueCommand op out s).len = s.len := by cases out <;> rfl
@[simp] theorem issueCommand_eword (op : OpCode) (out : Except Raise Results) (s : State) :
    (issueCommand op out s).eword = s.eword := by cases out <;> rfl
@[simp] theorem issueCommand_mem (op : OpCode) (out : Except Raise Results) (s : State) :
    (issueCommand op out s).mem = s.mem := by cases out <;> rfl
@[simp] theorem issueCommand_pending (op : OpCode) (out : Except Raise Results) (s : State) :
    (issueCommand op out s).pending = s.pending := by cases out <;> rfl
@[simp] theorem issueCommand_seen (op : OpCode) (out : Except Raise Results) (s : State) :
    (issueCommand op out s).seen = s.seen := by cases out <;> rfl
@[simp] theorem issueCommand_done (op : OpCode) (out : Except Raise Results) (s : State) :
    (issueCommand op out s).status.done = true := by cases out <;> rfl
@[simp] theorem issueCommand_lastop (op : OpCode) (out : Except Raise Results) (s : State) :
    (issueCommand op out s).status.lastop = op := by cases out <;> rfl

/-! ### `writeOperand`: what a register write leaves as it was -/

@[simp] theorem writeOperand_status (reg v : Nat) (s : State) : (writeOperand reg v s).status = s.status := by
  unfold writeOperand; split_ifs <;> rfl
@[simp] theorem writeOperand_results (reg v : Nat) (s : State) : (writeOperand reg v s).results = s.results := by
  unfold writeOperand; split_ifs <;> rfl
@[simp] theorem writeOperand_mem (reg v : Nat) (s : State) : (writeOperand reg v s).mem = s.mem := by
  unfold writeOperand; split_ifs <;> rfl
@[simp] theorem writeOperand_pending (reg v : Nat) (s : State) : (writeOperand reg v s).pending = s.pending := by
  unfold writeOperand; split_ifs <;> rfl
@[simp] theorem writeOperand_seen (reg v : Nat) (s : State) : (writeOperand reg v s).seen = s.seen := by
  unfold writeOperand; split_ifs <;> rfl

/-- A write of a read-only or unassigned number changes nothing (R22). -/
theorem writeOperand_other {reg : Nat} (v : Nat) (s : State) (h2 : reg ≠ 2) (h3 : reg ≠ 3) (h4 : reg ≠ 4)
    (h5 : reg ≠ 5) : writeOperand reg v s = s := by
  unfold writeOperand
  split_ifs <;> first | contradiction | rfl

/-! ### The fields of `Results.cleared` and of the two status updates -/

@[simp] theorem cleared_eOfflen : Results.cleared.eOfflen = 0 := rfl
@[simp] theorem cleared_eHasoff : Results.cleared.eHasoff = 0 := rfl
@[simp] theorem cleared_eTag : Results.cleared.eTag = 0 := rfl
@[simp] theorem cleared_eType : Results.cleared.eType = 0 := rfl
@[simp] theorem cleared_eWord : Results.cleared.eWord = 0 := rfl
@[simp] theorem cleared_nNeg : Results.cleared.nNeg = 0 := rfl
@[simp] theorem cleared_nWeight : Results.cleared.nWeight = 0 := rfl
@[simp] theorem cleared_nDscale : Results.cleared.nDscale = 0 := rfl
@[simp] theorem cleared_nNdigits : Results.cleared.nNdigits = 0 := rfl
@[simp] theorem cleared_nShift : Results.cleared.nShift = 0 := rfl
@[simp] theorem cleared_nCoef : Results.cleared.nCoef = 0 := rfl
@[simp] theorem cleared_nIval : Results.cleared.nIval = 0 := rfl
@[simp] theorem cleared_nFval : Results.cleared.nFval = 0 := rfl
@[simp] theorem cleared_nLenword : Results.cleared.nLenword = 0 := rfl
@[simp] theorem cleared_nHdr : Results.cleared.nHdr = 0 := rfl
@[simp] theorem cleared_nKind : Results.cleared.nKind = .none := rfl
@[simp] theorem okStatus_done (op : OpCode) : (okStatus op).done = true := rfl
@[simp] theorem okStatus_err (op : OpCode) : (okStatus op).err = .none := rfl
@[simp] theorem okStatus_sub (op : OpCode) : (okStatus op).sub = .none := rfl
@[simp] theorem okStatus_lastop (op : OpCode) : (okStatus op).lastop = op := rfl
@[simp] theorem errStatus_done (op : OpCode) (e : Raise) : (errStatus op e).done = true := rfl
@[simp] theorem errStatus_err (op : OpCode) (e : Raise) : (errStatus op e).err = raiseErr e := rfl
@[simp] theorem errStatus_sub (op : OpCode) (e : Raise) : (errStatus op e).sub = raiseSub e := rfl
@[simp] theorem errStatus_lastop (op : OpCode) (e : Raise) : (errStatus op e).lastop = op := rfl

/-- No error a command raises has code 0. -/
@[simp] theorem raiseErr_ne_none (e : Raise) : raiseErr e ≠ .none := by cases e <;> decide

end Sys2Proof.Machine
end

