-- ==== Sys2Proof/Laws/Step.lean ====
section
/-!
SUPPORT. What an instruction and a step can do, said once: every instruction ends in `issueCommand` or is a reserved
code, and a step is one host action.
-/

namespace Sys2Proof.Machine

/-- Every instruction but a reserved code ends one of the seven commands with some outcome. -/
theorem exec_cases (i : Instr) (s : State) :
    (∃ op out, exec i s = .next (issueCommand op out s) ∧ op ≠ 0 ∧ op.toNat ≤ 7) ∨
    ∃ op, exec i s = .refused (.reservedCommand op) := by
  cases i <;>
    first
    | exact .inr ⟨_, rfl⟩
    | exact .inl ⟨_, _, rfl, by decide, by decide⟩

/-- The next state of an instruction is `issueCommand` of some outcome. -/
theorem exec_next {i : Instr} {s t : State} (h : exec i s = .next t) :
    ∃ op out, t = issueCommand op out s ∧ op ≠ 0 ∧ op.toNat ≤ 7 := by
  rcases exec_cases i s with ⟨op, out, he, h0, h7⟩ | ⟨op, he⟩
  · rw [he] at h
    cases h
    exact ⟨op, out, rfl, h0, h7⟩
  · rw [he] at h
    cases h

/-- The code a command's row issues. -/
theorem decodeCommand_cases (op : OpCode) :
    (∃ i ∈ [Instr.eofflen, .ehasoff, .etype, .edec, .eload, .numdec, .numfdec], decodeCommand op = i) ∨
    decodeCommand op = .reservedZero ∨ ∃ low, decodeCommand op = .reservedHigh low := by
  simp only [decodeCommand]
  split_ifs <;> simp

/-- With no action left nothing happens. -/
theorem step_idle {s : State} (h : s.pending = []) : step s = .next s := by
  simp [step, takeAction, h]

/-- A write of `CMD` runs the command of its low four bits. -/
theorem step_command {s : State} {v : Nat} {rest : List HostAction} (h : s.pending = .writeReg 0 v :: rest) :
    step s = exec (decodeCommand (BitVec.ofNat 4 v)) { s with pending := rest } := by
  simp [step, takeAction, h, hostAct, Config.regCmd]

/-- A write of another register. -/
theorem step_write {s : State} {r v : Nat} {rest : List HostAction} (h : s.pending = .writeReg r v :: rest)
    (hr : r ≠ 0) : step s = .next (writeOperand r v { s with pending := rest }) := by
  simp [step, takeAction, h, hostAct, Config.regCmd, hr]

/-- A register read. -/
theorem step_read {s : State} {r : Nat} {rest : List HostAction} (h : s.pending = .readReg r :: rest) :
    step s = .next (hostRead r { s with pending := rest }) := by
  simp [step, takeAction, h, hostAct]

/-- A change of one byte of the buffer. -/
theorem step_writeBuffer {s : State} {o : Nat} {b : Byte} {rest : List HostAction}
    (h : s.pending = .writeBuffer o b :: rest) :
    step s = .next { s with pending := rest, mem := Memory.write s.mem o b } := by
  simp [step, takeAction, h, hostAct]

/-- Binding another buffer. -/
theorem step_bindBuffer {s : State} {bs : List Byte} {rest : List HostAction}
    (h : s.pending = .bindBuffer bs :: rest) :
    step s = .next { s with pending := rest, mem := Memory.writeBytes [] 0 bs } := by
  simp [step, takeAction, h, hostAct]

/-- The reset event. -/
theorem step_reset {s : State} {rest : List HostAction} (h : s.pending = .reset :: rest) :
    step s = .next (resetEvent { s with pending := rest }) := by
  simp [step, takeAction, h, hostAct]

/-- Everything a step that answers a next state can have done. -/
theorem step_cases {s t : State} (h : step s = .next t) :
    (s.pending = [] ∧ t = s) ∨
    ∃ a rest, s.pending = a :: rest ∧
      ((∃ v op out, a = .writeReg 0 v ∧ t = issueCommand op out { s with pending := rest } ∧
          exec (decodeCommand (BitVec.ofNat 4 v)) { s with pending := rest } = .next t) ∨
       (∃ r v, a = .writeReg r v ∧ r ≠ 0 ∧ t = writeOperand r v { s with pending := rest }) ∨
       (∃ r, a = .readReg r ∧ t = hostRead r { s with pending := rest }) ∨
       (∃ o b, a = .writeBuffer o b ∧ t = { s with pending := rest, mem := Memory.write s.mem o b }) ∨
       (∃ bs, a = .bindBuffer bs ∧ t = { s with pending := rest, mem := Memory.writeBytes [] 0 bs }) ∨
       (a = .reset ∧ t = resetEvent { s with pending := rest })) := by
  rcases hp : s.pending with _ | ⟨a, rest⟩
  · rw [step_idle hp] at h
    cases h
    exact .inl ⟨rfl, rfl⟩
  · refine .inr ⟨a, rest, rfl, ?_⟩
    cases a with
    | writeReg r v =>
      by_cases hr : r = 0
      · subst hr
        rw [step_command hp] at h
        obtain ⟨op, out, ht, -, -⟩ := exec_next h
        exact .inl ⟨v, op, out, rfl, ht, h⟩
      · rw [step_write hp hr] at h
        cases h
        exact .inr (.inl ⟨r, v, rfl, hr, rfl⟩)
    | readReg r =>
      rw [step_read hp] at h
      cases h
      exact .inr (.inr (.inl ⟨r, rfl, rfl⟩))
    | writeBuffer o b =>
      rw [step_writeBuffer hp] at h
      cases h
      exact .inr (.inr (.inr (.inl ⟨o, b, rfl, rfl⟩)))
    | bindBuffer bs =>
      rw [step_bindBuffer hp] at h
      cases h
      exact .inr (.inr (.inr (.inr (.inl ⟨bs, rfl, rfl⟩))))
    | reset =>
      rw [step_reset hp] at h
      cases h
      exact .inr (.inr (.inr (.inr (.inr ⟨rfl, rfl⟩))))

end Sys2Proof.Machine
end

