-- ==== Sys2Proof/Tests/Slice0.lean ====
section
/-!
SUPPORT. Small tests. Expected results are those of spec/95_test_vectors.md (vectors E1 to E22, V1 to V50, programs P1
to P4, cited by name) or words written out bit by bit from spec/30_encoding.md; none was taken from a run of this
model. The last part gives, for each statement that has hypotheses, concrete values that meet them.
-/

namespace Sys2Proof.Tests

open Sys2Proof.Machine Sys2Proof.Safety

/-! ### Helpers -/

/-- A state with the buffer `bs` bound, `BUFLEN`, `POS`, `LEN`, all else as after reset. -/
def bufState (bs : List Nat) (buflen pos len : Nat) : State :=
  { State.reset with
    mem := Memory.writeBytes [] 0 (bs.map (BitVec.ofNat 8))
    buflen := BitVec.ofNat 32 buflen
    pos := BitVec.ofNat 32 pos
    len := BitVec.ofNat 32 len }

/-- A state with `EWORD` set, all else as after reset. -/
def withEword (e : Nat) : State := { State.reset with eword := BitVec.ofNat 32 e }

/-- A state whose host has one action to make. -/
def hosting (a : HostAction) (s : State) : State := { s with pending := [a] }

/-- What the next state holds, if there is one. -/
def ask {α : Type} (f : State → α) : Host.Outcome State Fault Refusal → Option α
  | .next t => some (f t)
  | _ => none

/-- The registers with these numbers. -/
def regs (l : List Nat) (s : State) : List Nat := l.map (regValue s)

/-- `STATUS`. -/
def statusOf (s : State) : Nat := regValue s 1

/-! ### Well-formedness: the one check, and a term it refuses -/

theorem test_wf_special_bad_ok : (Instr.numSpecialBad 0x0001).WellFormed = true := by decide

/-- The words of NaN, +Infinity and -Infinity are not `NUM.SPECIAL_BAD` (R59, R67). -/
theorem test_wf_refuses_special_words :
    [Instr.numSpecialBad 0x0000, .numSpecialBad 0x1000, .numSpecialBad 0x3000].map Instr.WellFormed =
      [false, false, false] := by decide

/-! ### Decoding: each constructor's word written out from the spec's encoding -/

/-- `op` = 1 (R64). -/
theorem test_decode_eofflen : decodeTableWord 8 0b0001 = some (.eofflen) := by decide

/-- `op` = 2 (R64). -/
theorem test_decode_ehasoff : decodeTableWord 8 0b0010 = some (.ehasoff) := by decide

/-- `op` = 3 (R64). -/
theorem test_decode_etype : decodeTableWord 8 0b0011 = some (.etype) := by decide

/-- `op` = 4 (R64). -/
theorem test_decode_edec : decodeTableWord 8 0b0100 = some (.edec) := by decide

/-- `op` = 5 (R64). -/
theorem test_decode_eload : decodeTableWord 8 0b0101 = some (.eload) := by decide

/-- `op` = 6 (R64). -/
theorem test_decode_numdec : decodeTableWord 8 0b0110 = some (.numdec) := by decide

/-- `op` = 7 (R64). -/
theorem test_decode_numfdec : decodeTableWord 8 0b0111 = some (.numfdec) := by decide

/-- `op` = 0 (R66). -/
theorem test_decode_reserved_zero : decodeTableWord 8 0b0000 = some (.reservedZero) := by decide

/-- `op` = 13 (R66). -/
theorem test_decode_reserved_high : decodeTableWord 8 0b1101 = some (.reservedHigh 0b101) := by decide

/-- `hasoff` 0, `tag` 0, `offlen` 5 (R51, R52; vector E1). -/
theorem test_decode_entry_string : decodeTableWord 32 0b00000000000000000000000000000101 = some (.entryString 0 5) := by decide

/-- `hasoff` 1, `tag` 1, `offlen` 14 (R51, R52; vector E3). -/
theorem test_decode_entry_numeric : decodeTableWord 32 0b10010000000000000000000000001110 = some (.entryNumeric 1 14) := by decide

/-- `hasoff` 1, `tag` 2, `offlen` 0 (R51, R52; vector E16). -/
theorem test_decode_entry_boolfalse : decodeTableWord 32 0b10100000000000000000000000000000 = some (.entryBoolFalse 1 0) := by decide

/-- `hasoff` 0, `tag` 3, `offlen` 0 (R51, R52; vector E5). -/
theorem test_decode_entry_booltrue : decodeTableWord 32 0b00110000000000000000000000000000 = some (.entryBoolTrue 0 0) := by decide

/-- `hasoff` 0, `tag` 4, `offlen` 0 (R51, R52; vector E6). -/
theorem test_decode_entry_null : decodeTableWord 32 0b01000000000000000000000000000000 = some (.entryNull 0 0) := by decide

/-- `hasoff` 0, `tag` 5, `offlen` 20 (R51, R52; vector E7). -/
theorem test_decode_entry_container : decodeTableWord 32 0b01010000000000000000000000010100 = some (.entryContainer 0 20) := by decide

/-- `hasoff` 1, `tag` 6, `offlen` 1 (R51, R52; vector E14). -/
theorem test_decode_entry_reserved6 : decodeTableWord 32 0b11100000000000000000000000000001 = some (.entryReserved6 1 1) := by decide

/-- `hasoff` 0, `tag` 7, `offlen` 268435455 (R51, R52; vector E9). -/
theorem test_decode_entry_reserved7 : decodeTableWord 32 0b01111111111111111111111111111111 = some (.entryReserved7 0 268435455) := by decide

/-- Variant 00, vector V28 (R55). -/
theorem test_decode_long_pos : decodeTableWord 16 0b0011111111111111 = some (.numLongPos 0x3FFF) := by decide

/-- Variant 01, vector V29 (R55). -/
theorem test_decode_long_neg : decodeTableWord 16 0b0100000000000000 = some (.numLongNeg 0) := by decide

/-- Variant 10, sign 1, dscale 1, weight -1: the header 0xA0FF of P4 (R56). -/
theorem test_decode_short : decodeTableWord 16 0b1010000011111111 = some (.numShort 1 1 0x7F) := by decide

/-- Variant 10, sign 0, dscale 63, weight 1: the header 0x9F81 of V41 (R56). -/
theorem test_decode_short_dscale : decodeTableWord 16 0b1001111110000001 = some (.numShort 0 63 1) := by decide

/-- 0xC000 (R59). -/
theorem test_decode_nan : decodeTableWord 16 0b1100000000000000 = some (.numNan) := by decide

/-- 0xD000 (R59). -/
theorem test_decode_pinf : decodeTableWord 16 0b1101000000000000 = some (.numPinf) := by decide

/-- 0xF000 (R59). -/
theorem test_decode_ninf : decodeTableWord 16 0b1111000000000000 = some (.numNinf) := by decide

/-- 0xE000, vector V22 (R59). -/
theorem test_decode_special_bad : decodeTableWord 16 0b1110000000000000 = some (.numSpecialBad 0x2000) := by decide

/-- The byte at the lower offset is the less significant: vectors E17 and E20 (R33, R35). -/
theorem test_decode_little_endian :
    decodeBytes [0x0A, 0x00, 0x00, 0x10] = .ok (.entryNumeric 0 10) ∧
    decodeBytes [0x10, 0x00, 0x00, 0x0A] = .ok (.entryString 0 167772176) := by decide

/-- A command code has 4 bits; no format has three bytes or none. -/
theorem test_decode_rejects :
    decodeBytes [0x11] = .error (.commandTooWide 0x11) ∧
    decodeBytes [1, 2, 3] = .error (.badLength 3) ∧ decodeBytes [] = .error (.badLength 0) := by decide

/-! ### Entry Codec -/

/-- E9: `offlen` of a word with an unused tag. -/
theorem test_eofflen_unused_tag : ask (regs [1, 8, 9, 12]) (exec .eofflen (withEword 0x7FFFFFFF)) =
    some [0x081, 268435455, 0, 0x7FFFFFFF] := by decide

/-- P3 step 2. -/
theorem test_ehasoff_set : ask (regs [1, 8, 9, 12]) (exec .ehasoff (withEword 0xFFFFFFFF)) =
    some [0x101, 0, 1, 0xFFFFFFFF] := by decide

/-- E13: tag 5 with the has-offset flag. -/
theorem test_etype_container : ask (regs [8, 9, 10, 11]) (exec .etype (withEword 0xD0000000)) =
    some [0, 0, 5, 5] := by decide

/-- P3 step 3: tag 7. -/
theorem test_etype_unused : ask (regs [1, 10, 12]) (exec .etype (withEword 0xFFFFFFFF)) =
    some [0x195, 0, 0] := by decide

/-- E3. -/
theorem test_edec_hasoff : ask (regs [8, 9, 10, 11]) (exec .edec (withEword 0x9000000E)) =
    some [14, 1, 1, 1] := by decide

/-- E8 with P3 step 4: tag 6, no field delivered. -/
theorem test_edec_unused : ask (regs [1, 8, 9, 10, 12]) (exec .edec (withEword 0xE0000001)) =
    some [0x215, 0, 0, 0, 0] := by decide

/-- E21: an unaligned read, tag 6. -/
theorem test_eload_unaligned : ask statusOf (exec .eload (bufState [0xFF, 0, 0, 0, 0x60] 5 1 0)) = some 0x295 := by decide

/-- E22: 0xFFFFFFFF + 4 does not wrap. -/
theorem test_eload_no_wrap : ask statusOf (exec .eload (bufState [] 0xFFFFFFFF 0xFFFFFFFF 0)) = some 0x283 := by decide

/-! ### Numeric Decoder -/

/-- V2: 1.2345. -/
theorem test_numdec_float :
    ask (regs [1, 26, 17, 18, 19, 20, 21, 22, 16, 23, 24]) (exec .numdec (bufState [0, 0x82, 1, 0, 0x29, 9] 6 0 6)) =
    some [0x301, 0x8200, 0, 0, 4, 2, 1, 12345, 2, 0, 0x3FF3C083126E978D] := by decide +kernel

/-- V3: -12345. -/
theorem test_numdec_negative_int :
    ask (fun t => t.results.nIval.toInt) (exec .numdec (bufState [1, 0xA0, 1, 0, 0x29, 9] 6 0 6)) =
    some (-12345) := by decide +kernel

/-- P4 step 1: padding of 3, an opaque length word, -0.5. -/
theorem test_numfdec_padding : ask (regs [1, 25, 26, 17, 18, 19, 20, 21, 22, 16, 24])
    (exec .numfdec (bufState [0, 0, 0, 0, 0, 0xAA, 0xBB, 0xCC, 0xEF, 0xBE, 0xAD, 0xDE, 0xFF, 0xA0, 0x88, 0x13] 16 5 11)) =
    some [0x381, 0xDEADBEEF, 0xA0FF, 1, 0x7F, 1, 1, 1, 5000, 2, 0xBFE0000000000000] := by decide +kernel

/-- P4 step 4: the second digit does not fit. -/
theorem test_numfdec_out_of_bounds : ask (regs [1, 25, 26])
    (exec .numfdec (bufState [0, 0, 0, 0, 0, 0xAA, 0xBB, 0xCC, 0xEF, 0xBE, 0xAD, 0xDE, 0xFF, 0xA0, 0x88, 0x13] 16 5 13)) =
    some [0x383, 0, 0] := by decide

/-- V14: 10^-320, a subnormal, by the row `NUM.SHORT`. -/
theorem test_short_subnormal :
    ask (regs [20, 21, 24]) (exec (.numShort 0 0 0x40) (bufState ([0x40, 0x80] ++ List.replicate 32 0 ++ [1, 0]) 36 0 36)) =
    some [17, 80, 0x7E8] := by decide +kernel

/-- V44: the largest magnitude of kind INT, by the row `NUM.SHORT`. -/
theorem test_short_largest :
    ask (fun t => t.results.nIval.toInt)
      (exec (.numShort 0 0 0x3F) (bufState ([0x3F, 0x80] ++ List.replicate 128 0xFF) 130 0 130)) =
    some (65535 * (10000 ^ 64 - 1) / 9999) := by decide +kernel

/-- V32: NaN, whatever `LEN` says beyond the header. -/
theorem test_nan_range_past_buffer : ask (regs [1, 16, 24, 26]) (exec .numNan (bufState [0, 0xC0] 2 0 6)) =
    some [0x301, 3, 0x7FF8000000000000, 0xC000] := by decide

/-- V20. -/
theorem test_pinf : ask (regs [16, 24]) (exec .numPinf (bufState [0, 0xD0] 2 0 2)) =
    some [4, 0x7FF0000000000000] := by decide

/-- V21. -/
theorem test_ninf : ask (regs [16, 24]) (exec .numNinf (bufState [0, 0xF0] 2 0 2)) =
    some [5, 0xFFF0000000000000] := by decide

/-- V33: a bad special word is neither OutOfBounds nor NUM_RANGE. -/
theorem test_special_bad : ask statusOf (exec (.numSpecialBad 0x2000) (bufState [0, 0xE0] 2 0 7)) = some 0x325 := by decide

/-- V34: the odd remainder is not examined in the Long branch. -/
theorem test_long_pos_odd : ask statusOf (exec (.numLongPos 0) (bufState [0, 0, 0xAA] 3 0 3)) = some 0x347 := by decide

/-- V29. -/
theorem test_long_neg : ask statusOf (exec (.numLongNeg 0) (bufState [0, 0x40] 2 0 2)) = some 0x347 := by decide

/-! ### Entry rows, under `EDEC` -/

/-- E1. -/
theorem test_row_string : ask (regs [1, 8, 9, 10, 11]) (exec (.entryString 0 5) State.reset) =
    some [0x201, 5, 0, 0, 0] := by decide

/-- E3. -/
theorem test_row_numeric : ask (regs [1, 8, 9, 10, 11]) (exec (.entryNumeric 1 14) State.reset) =
    some [0x201, 14, 1, 1, 1] := by decide

/-- E16. -/
theorem test_row_boolfalse : ask (regs [1, 8, 9, 10, 11]) (exec (.entryBoolFalse 1 0) State.reset) =
    some [0x201, 0, 1, 2, 2] := by decide

/-- E5. -/
theorem test_row_booltrue : ask (regs [1, 8, 9, 10, 11]) (exec (.entryBoolTrue 0 0) State.reset) =
    some [0x201, 0, 0, 3, 3] := by decide

/-- E6. -/
theorem test_row_null : ask (regs [1, 8, 9, 10, 11]) (exec (.entryNull 0 0) State.reset) =
    some [0x201, 0, 0, 4, 4] := by decide

/-- E7. -/
theorem test_row_container : ask (regs [1, 8, 9, 10, 11]) (exec (.entryContainer 0 20) State.reset) =
    some [0x201, 20, 0, 5, 5] := by decide

/-- E14. -/
theorem test_row_reserved6 : ask (regs [1, 8, 9, 10, 11, 12]) (exec (.entryReserved6 1 1) State.reset) =
    some [0x215, 0, 0, 0, 0, 0] := by decide

/-- E9. -/
theorem test_row_reserved7 : ask (regs [1, 8, 9, 10, 11, 12]) (exec (.entryReserved7 0 268435455) State.reset) =
    some [0x215, 0, 0, 0, 0, 0] := by decide

/-! ### The step and the host -/

/-- R66, R143: codes 0 and 8 are refused. -/
theorem test_reserved_refused :
    step (hosting (.writeReg 0 0) State.reset) = .refused (.reservedCommand 0) ∧
    step (hosting (.writeReg 0 8) State.reset) = .refused (.reservedCommand 8) := ⟨rfl, rfl⟩

/-- P1 step 2, `WR CMD, 5`. -/
theorem test_step_eload :
    ask (regs [1, 8, 9, 10, 11, 12])
      (step (hosting (.writeReg 0 5) (bufState [1, 0, 0, 0x50, 0x0A, 0, 0, 0x10] 18 4 0))) =
    some [0x281, 10, 0, 1, 1, 0x1000000A] := by decide

/-- P3 step 0: `RD STATUS` after reset. -/
theorem test_step_read_status : ask State.seen (step (hosting (.readReg 1) State.reset)) = some [0x0000000A] := by decide

/-- R141: a value written is truncated to the register's 32 bits. -/
theorem test_step_write_truncates :
    ask (regs [2, 3]) (step (hosting (.writeReg 3 0x100000007) State.reset)) = some [0, 7] := by decide

/-- R22: `STATUS` ignores a write. -/
theorem test_step_write_status : ask statusOf (step (hosting (.writeReg 1 0) State.reset)) = some 0x0000000A := by decide

/-- R180, R181: the reset event clears the registers and keeps the buffer. -/
theorem test_step_reset :
    ask (fun t => (regs [1, 2, 3] t, byteAt t 0)) (step (hosting .reset (bufState [0xAB] 1 2 3))) =
    some ([0x0000000A, 0, 0], 0xAB) := by decide

/-- A command word, a header word (V5) and an entry word (E2) as the first instruction after reset. -/
theorem test_fetch_word_first :
    ask statusOf (step (State.reset.withFetchWord 8 1)) = some 0x081 ∧
    ask (regs [1, 26, 21, 16]) (step (State.reset.withFetchWord 16 0x8000)) =
      some [0x301, 0x8000, 2 ^ 33 - 1, 1] ∧
    ask (regs [1, 11, 8]) (step (State.reset.withFetchWord 32 0x1000000A)) = some [0x201, 1, 10] := by decide +kernel

/-! ### The hypotheses of each statement can be met

A statement's name follows `test_met_`. Where a statement has several clauses, each has its values, at the ends of its
range. -/

theorem test_met_ResetRegistersHoldZero : (0 : Nat) ≠ 1 ∧ (26 : Nat) ≠ 1 ∧ 0 < 1 := by decide

theorem test_met_ResetEventRestoresRegisters :
    (hosting .reset State.reset).pending = .reset :: [] := by decide

theorem test_met_RegisterReadReturnsValue :
    (hosting (.readReg 26) State.reset).pending = .readReg 26 :: [] ∧
    ((15 : Nat) ∈ [0, 6, 7, 13, 14, 15] ∨ 27 ≤ 15) ∧ ((27 : Nat) ∈ [0, 6, 7, 13, 14, 15] ∨ 27 ≤ 27) := by decide

theorem test_met_OperandWriteStoresTruncated :
    (∀ r ∈ [2, 3, 4, 5], (hosting (.writeReg r 0x100000001) State.reset).pending = .writeReg r 0x100000001 :: []) ∧
    ask State.buflen (exec .eofflen State.reset) = some 0 := by decide

theorem test_met_OtherRegisterWritesIgnored :
    (∀ r ∈ [1, 6, 27], (hosting (.writeReg r 5) State.reset).pending = .writeReg r 5 :: [] ∧ (r = 1 ∨ 6 ≤ r)) ∧
    ((6 : Nat) ∈ [6, 7, 13, 14, 15] ∨ 27 ≤ 6) ∧ ((27 : Nat) ∈ [6, 7, 13, 14, 15] ∨ 27 ≤ 27) := by decide

/-- At the first byte, and with the byte an unlisted offset reads as. -/
theorem test_met_BufferWriteChangesOneByte :
    Memory.wf (hosting (.writeBuffer 0 0xFF) (bufState [1, 2] 2 0 0)).mem = true ∧
    (hosting (.writeBuffer 0 0xFF) (bufState [1, 2] 2 0 0)).pending = .writeBuffer 0 0xFF :: [] ∧
    (hosting (.writeBuffer 1 0) (bufState [1, 2] 2 0 0)).pending = .writeBuffer 1 0 :: [] := by decide

theorem test_met_BindBufferGivesItsBytes :
    (hosting (.bindBuffer [0, 7]) State.reset).pending = .bindBuffer [0, 7] :: [] := by decide

/-- A code that needs no truncation and one that does. -/
theorem test_met_StepRunsDecodedCommand :
    (hosting (.writeReg 0 7) State.reset).pending = .writeReg 0 7 :: [] ∧
    (hosting (.writeReg 0 0x17) State.reset).pending = .writeReg 0 0x17 :: [] ∧ State.reset.pending = [] := by decide

theorem test_met_FetchWordRunsDecodedWord :
    Memory.wf (bufState [1, 2] 2 0 0).mem = true ∧ 15 < 2 ^ 4 ∧ 0xFFFF < 2 ^ 16 ∧ 0xFFFFFFFF < 2 ^ 32 := by decide

theorem test_met_ReservedCommandsRefused :
    ∀ op ∈ [0, 8, 15], (hosting (.writeReg 0 op) State.reset).pending = .writeReg 0 op :: [] ∧
      (op = 0 ∨ (8 ≤ op ∧ op ≤ 15)) := by decide

theorem test_met_DecodeEncodeRoundTrip :
    (Instr.numShort 1 0x3F 0x40).WellFormed = true ∧ (Instr.numSpecialBad 0x3FFF).WellFormed = true ∧
    (Instr.reservedHigh 7).WellFormed = true ∧ (Instr.entryReserved7 1 0xFFFFFFF).WellFormed = true := by decide

theorem test_met_EncodeDecodeRoundTrip :
    decodeBytes [0xFF, 0xFF] = .ok (.numSpecialBad 0x3FFF) ∧ decodeBytes [0x0F] = .ok (.reservedHigh 7) := by decide

theorem test_met_WordsSelectTheirRow :
    (tableRow (.reservedHigh 0)).format = .cmd4 ∧ (tableRow (.entryReserved7 0 0)).format = .entry32 ∧
    (tableRow (.numSpecialBad 0)).format = .numhdr16 := by decide

/-- Bytes that end at the buffer's end, and one further. -/
theorem test_met_MemReadChecksBounds :
    0 + 4 ≤ (bufState [] 4 0 0).buflen.toNat ∧ 1 + 4 > (bufState [] 4 0 0).buflen.toNat := by decide

theorem test_met_ReadsAreLittleEndian :
    2 + 2 ≤ (bufState [] 4 0 0).buflen.toNat ∧ 3 + 2 > (bufState [] 4 0 0).buflen.toNat ∧
    0 + 4 ≤ (bufState [] 4 0 0).buflen.toNat ∧ 1 + 4 > (bufState [] 4 0 0).buflen.toNat := by decide

/-- Tags 0, 5, 6 and 7. -/
theorem test_met_EtypeResult :
    ((withEword 0x00000000).eword.extractLsb' 28 3).toNat ≤ 5 ∧
    ((withEword 0xD0000000).eword.extractLsb' 28 3).toNat ≤ 5 ∧
    6 ≤ ((withEword 0x60000000).eword.extractLsb' 28 3).toNat ∧
    6 ≤ ((withEword 0xFFFFFFFF).eword.extractLsb' 28 3).toNat := by decide

theorem test_met_EdecResult :
    ((withEword 0x8FFFFFFF).eword.extractLsb' 28 3).toNat ≤ 5 ∧
    ((withEword 0x50000014).eword.extractLsb' 28 3).toNat ≤ 5 ∧
    6 ≤ ((withEword 0xE0000001).eword.extractLsb' 28 3).toNat ∧
    6 ≤ ((withEword 0x7FFFFFFF).eword.extractLsb' 28 3).toNat := by decide

/-- E17 ends at the buffer's end, E18 is one past it; tags 5 and 6 in a word that fits. -/
theorem test_met_EloadResult :
    (bufState [0x0A, 0, 0, 0x10] 4 0 0).pos.toNat + 4 ≤ (bufState [0x0A, 0, 0, 0x10] 4 0 0).buflen.toNat ∧
    (bufState [0x0A, 0, 0, 0x10] 4 1 0).pos.toNat + 4 > (bufState [0x0A, 0, 0, 0x10] 4 1 0).buflen.toNat ∧
    ((0x50000000 : Word).toNat = wordAt (bufState [0, 0, 0, 0x50] 4 0 0) 0 ∧
      ((0x50000000 : Word).extractLsb' 28 3).toNat ≤ 5) ∧
    ((0x60000000 : Word).toNat = wordAt (bufState [0, 0, 0, 0x60] 4 0 0) 0 ∧
      6 ≤ ((0x60000000 : Word).extractLsb' 28 3).toNat) := by decide

/-- Tags 0 and 5, by each command. -/
theorem test_met_LegalEntryWordsReportVariant :
    (DecodesEntry (withEword 0x0FFFFFFF) .edec 4 0x0FFFFFFF ∧ (0x0FFFFFFF : Word).toNat / 2 ^ 28 % 8 ≤ 5) ∧
    (DecodesEntry (bufState [0, 0, 0, 0xD0] 4 0 0) .eload 5 0xD0000000 ∧ (0xD0000000 : Word).toNat / 2 ^ 28 % 8 ≤ 5) ∧
    (withEword 0x50000014).eword.toNat / 2 ^ 28 % 8 ≤ 5 := by
  unfold DecodesEntry
  decide

/-- Tags 6 and 7, by each command. -/
theorem test_met_UnusedEntryTagsRaise :
    (DecodesEntry (withEword 0x60000000) .edec 4 0x60000000 ∧ 6 ≤ (0x60000000 : Word).toNat / 2 ^ 28 % 8) ∧
    (DecodesEntry (bufState [0, 0, 0, 0x70] 4 0 0) .eload 5 0x70000000 ∧ 6 ≤ (0x70000000 : Word).toNat / 2 ^ 28 % 8) ∧
    6 ≤ (withEword 0xFFFFFFFF).eword.toNat / 2 ^ 28 % 8 := by
  unfold DecodesEntry
  decide

theorem test_met_EntryFieldsPartitionWord :
    ask (fun t => t.status.err) (exec .edec (withEword 0x9000000E)) = some .none ∧
    (Instr.etype ∈ [Instr.eofflen, .ehasoff, .etype, .edec] ∧
      (withEword 0).eword = (bufState [1] 1 2 3).eword ∧
      ask State.pos (exec .etype (withEword 0)) = some 0 ∧ ask State.pos (exec .etype (bufState [1] 1 2 3)) = some 2) := by
  decide

theorem test_met_NumdecRangeTooShort :
    (bufState [1, 0x80] 2 0 0).len.toNat < 2 ∧ (bufState [1, 0x80] 2 0 1).len.toNat < 2 := by decide

/-- V38; a `NUMFDEC` whose header is one byte past the buffer; a header that ends at the buffer's end. -/
theorem test_met_HeaderFetchAndFieldBytes :
    (2 ≤ (bufState [1] 1 0 2).len.toNat ∧ (bufState [1] 1 0 2).pos.toNat + 2 > (bufState [1] 1 0 2).buflen.toNat) ∧
    (0 = (4 - (bufState [] 5 0 6).pos.toNat % 4) % 4 ∧ 0 + 6 ≤ (bufState [] 5 0 6).len.toNat ∧
      (bufState [] 5 0 6).pos.toNat + 0 + 6 > (bufState [] 5 0 6).buflen.toNat) ∧
    0 + 2 ≤ (bufState [1, 0x80] 2 0 2).buflen.toNat := by decide

/-- A header of each variant. -/
theorem test_met_NumericBranchByVariant :
    (DecodesHeader (bufState [0, 0] 2 0 2) .numdec 6 0 2 0 0 ∧ 0 / 2 ^ 14 = 0) ∧
    (DecodesHeader (bufState [0xFF, 0x7F] 2 0 2) .numdec 6 0 2 0 0x7FFF ∧ 0x7FFF / 2 ^ 14 = 1) ∧
    (DecodesHeader (bufState [0, 0x80] 2 0 2) .numdec 6 0 2 0 0x8000 ∧ 0x8000 / 2 ^ 14 = 2) ∧
    (DecodesHeader (bufState [0, 0xC0] 2 0 2) .numdec 6 0 2 0 0xC000 ∧ 0xC000 / 2 ^ 14 = 3) := by
  unfold DecodesHeader
  decide

/-- Both Long codes, by each command; `NUMFDEC` starts at offset 3 and skips one byte of padding. -/
theorem test_met_LongHeadersUnsupported :
    (DecodesHeader (bufState [0xFF, 0x3F] 2 0 3) .numdec 6 0 3 0 0x3FFF ∧ 0x3FFF / 2 ^ 14 = 0) ∧
    (DecodesHeader (bufState [0, 0, 0, 9, 0x28, 0, 0, 0, 0, 0x40] 10 3 7) .numfdec 7 8 2 0x28 0x4000 ∧
      0x4000 / 2 ^ 14 = 1) := by
  unfold DecodesHeader
  decide

theorem test_met_SpecialHeadersGiveValues :
    DecodesHeader (bufState [0, 0xC0] 2 0 6) .numdec 6 0 6 0 0xC000 ∧
    DecodesHeader (bufState [0, 0xD0] 2 0 2) .numdec 6 0 2 0 0xD000 ∧
    DecodesHeader (bufState [0x28, 0, 0, 0, 0, 0xF0] 6 0 6) .numfdec 7 4 2 0x28 0xF000 := by
  unfold DecodesHeader
  decide

/-- The first and the last of the other Special words, and one between the three. -/
theorem test_met_OtherSpecialHeadersMalformed :
    (DecodesHeader (bufState [1, 0xC0] 2 0 2) .numdec 6 0 2 0 0xC001 ∧ 0xC001 / 2 ^ 14 = 3 ∧ 0xC001 ≠ 0xC000 ∧
      0xC001 ≠ 0xD000 ∧ 0xC001 ≠ 0xF000) ∧
    (DecodesHeader (bufState [0xFF, 0xFF] 2 0 2) .numdec 6 0 2 0 0xFFFF ∧ 0xFFFF / 2 ^ 14 = 3 ∧ 0xFFFF ≠ 0xC000 ∧
      0xFFFF ≠ 0xD000 ∧ 0xFFFF ≠ 0xF000) := by
  unfold DecodesHeader
  decide

/-- An odd remainder (V46), no digit at all (V5), two digits (V1), and `NUMFDEC`. -/
theorem test_met_ShortDigitCount :
    (DecodesHeader (bufState [1, 0x80, 1, 0, 0x29, 9] 6 0 5) .numdec 6 0 5 0 0x8001 ∧ 0x8001 / 2 ^ 14 = 2 ∧
      (5 - 2) % 2 = 1) ∧
    (DecodesHeader (bufState [0, 0x80] 2 0 2) .numdec 6 0 2 0 0x8000 ∧ 0x8000 / 2 ^ 14 = 2 ∧ (2 - 2) % 2 = 0 ∧
      0 + 2 ≤ (bufState [0, 0x80] 2 0 2).buflen.toNat) ∧
    (DecodesHeader (bufState [0x28, 0, 0, 0, 1, 0x80, 1, 0] 8 0 8) .numfdec 7 4 4 0x28 0x8001 ∧ (4 - 2) % 2 = 0 ∧
      4 + 4 ≤ (bufState [0x28, 0, 0, 0, 1, 0x80, 1, 0] 8 0 8).buflen.toNat) := by
  unfold DecodesHeader
  decide

/-- V36 (the third digit is one word past the buffer), V1 (the digits end at its end). -/
theorem test_met_ShortAccumulatesDigits :
    (DecodesHeader (bufState [1, 0x80, 1, 0, 0x29, 9] 6 0 8) .numdec 6 0 8 0 0x8001 ∧ 0x8001 / 2 ^ 14 = 2 ∧
      8 = 2 + 2 * 3 ∧ 0 + 2 + 2 * 3 > (bufState [1, 0x80, 1, 0, 0x29, 9] 6 0 8).buflen.toNat) ∧
    (DecodesHeader (bufState [1, 0x80, 1, 0, 0x29, 9] 6 0 6) .numdec 6 0 6 0 0x8001 ∧ 6 = 2 + 2 * 2 ∧
      0 + 2 + 2 * 2 ≤ (bufState [1, 0x80, 1, 0, 0x29, 9] 6 0 6).buflen.toNat) := by
  unfold DecodesHeader
  decide

/-- V2, and `NUMFDEC` on the same digits; every digit below 10000. -/
theorem test_met_ShortResultRegisters :
    (DecodesHeader (bufState [0, 0x82, 1, 0, 0x29, 9] 6 0 6) .numdec 6 0 6 0 0x8200 ∧ 0x8200 / 2 ^ 14 = 2 ∧
      6 = 2 + 2 * 2 ∧ 0 + 6 ≤ (bufState [0, 0x82, 1, 0, 0x29, 9] 6 0 6).buflen.toNat) ∧
    (DecodesHeader (bufState [0x28, 0, 0, 0, 0, 0x82, 1, 0, 0x29, 9] 10 0 10) .numfdec 7 4 6 0x28 0x8200 ∧
      4 + 6 ≤ (bufState [0x28, 0, 0, 0, 0, 0x82, 1, 0, 0x29, 9] 10 0 10).buflen.toNat) ∧
    ∀ j, j < 2 → digitAt (bufState [0, 0x82, 1, 0, 0x29, 9] 6 0 6) 0 j < 10000 := by
  unfold DecodesHeader
  decide

/-- The ends of the weight: V9 (63) and V8 (-64). -/
theorem test_met_TripleIsWeightedDigitSum :
    (DecodesHeader (bufState [0x3F, 0x80, 0x0F, 0x27] 4 0 4) .numdec 6 0 4 0 0x803F ∧ 0x803F / 2 ^ 14 = 2 ∧
      4 = 2 + 2 * 1 ∧ 0 + 4 ≤ (bufState [0x3F, 0x80, 0x0F, 0x27] 4 0 4).buflen.toNat ∧ weightOf 0x803F = 63) ∧
    (DecodesHeader (bufState [0x40, 0x80, 1, 0] 4 0 4) .numdec 6 0 4 0 0x8040 ∧ 0x8040 / 2 ^ 14 = 2 ∧
      0 + 4 ≤ (bufState [0x40, 0x80, 1, 0] 4 0 4).buflen.toNat ∧ weightOf 0x8040 = -64) := by
  unfold DecodesHeader
  decide

/-- `shift` 0 (V1) and 1 (V2), and the negative zero of V12. -/
theorem test_met_KindAndSign :
    (DecodesHeader (bufState [1, 0x80, 1, 0, 0x29, 9] 6 0 6) .numdec 6 0 6 0 0x8001 ∧ 0x8001 / 2 ^ 14 = 2 ∧
      0 + 6 ≤ (bufState [1, 0x80, 1, 0, 0x29, 9] 6 0 6).buflen.toNat ∧ (2 : Int) - weightOf 0x8001 - 1 = 0) ∧
    (DecodesHeader (bufState [0, 0x82, 1, 0, 0x29, 9] 6 0 6) .numdec 6 0 6 0 0x8200 ∧ (2 : Int) - weightOf 0x8200 - 1 = 1) ∧
    (DecodesHeader (bufState [0x7E, 0xA0] 2 0 2) .numdec 6 0 2 0 0xA07E ∧ 2 = 2 + 2 * 0 ∧
      ask (regs [17, 16, 24]) (exec .numdec (bufState [0x7E, 0xA0] 2 0 2)) = some [1, 2, 0x8000000000000000]) := by
  unfold DecodesHeader
  decide

/-- The last digit count that is still INT (`shift` 0, V1) and a smaller one (V6). -/
theorem test_met_IntegerViewIsExact :
    (DecodesHeader (bufState [1, 0x80, 1, 0, 0x29, 9] 6 0 6) .numdec 6 0 6 0 0x8001 ∧ 0x8001 / 2 ^ 14 = 2 ∧
      6 = 2 + 2 * 2 ∧ 0 + 6 ≤ (bufState [1, 0x80, 1, 0, 0x29, 9] 6 0 6).buflen.toNat ∧ (2 : Int) ≤ weightOf 0x8001 + 1) ∧
    (DecodesHeader (bufState [1, 0x80, 1, 0] 4 0 4) .numdec 6 0 4 0 0x8001 ∧ (1 : Int) ≤ weightOf 0x8001 + 1) := by
  unfold DecodesHeader
  decide

/-- V9, the largest weight; its digit is 9999, below 10000. -/
theorem test_met_IntegerViewFitsItsRegister :
    DecodesHeader (bufState [0x3F, 0x80, 0x0F, 0x27] 4 0 4) .numdec 6 0 4 0 0x803F ∧ 0x803F / 2 ^ 14 = 2 ∧
      4 = 2 + 2 * 1 ∧ 0 + 4 ≤ (bufState [0x3F, 0x80, 0x0F, 0x27] 4 0 4).buflen.toNat ∧
      (1 : Int) ≤ weightOf 0x803F + 1 ∧
      ∀ j, j < 1 → digitAt (bufState [0x3F, 0x80, 0x0F, 0x27] 4 0 4) 0 j < 10000 := by
  unfold DecodesHeader
  decide

/-- The first digit count that is FLOAT (`shift` 1, V2), and the magnitude 0 of V12. -/
theorem test_met_FloatViewIsNearestBinary64 :
    (DecodesHeader (bufState [0, 0x82, 1, 0, 0x29, 9] 6 0 6) .numdec 6 0 6 0 0x8200 ∧ 0x8200 / 2 ^ 14 = 2 ∧
      6 = 2 + 2 * 2 ∧ 0 + 6 ≤ (bufState [0, 0x82, 1, 0, 0x29, 9] 6 0 6).buflen.toNat ∧ weightOf 0x8200 + 1 < (2 : Int)) ∧
    (DecodesHeader (bufState [0x7E, 0xA0] 2 0 2) .numdec 6 0 2 0 0xA07E ∧ 0xA07E / 2 ^ 14 = 2 ∧ 2 = 2 + 2 * 0 ∧
      0 + 2 ≤ (bufState [0x7E, 0xA0] 2 0 2).buflen.toNat ∧ weightOf 0xA07E + 1 < (0 : Int)) := by
  unfold DecodesHeader
  decide

/-- A half (V4), zero, and the smallest denominator. -/
theorem test_met_Rne64IsNearestEven :
    (0 < 10000 ∧ 5000 < 10000 * 2 ^ 1023) ∧ (0 < 1 ∧ 0 < 1 * 2 ^ 1023) ∧ rne64 5000 10000 = 0x3FE0000000000000 := by
  decide +kernel

/-- V1's digits under `dscale` 0 and 63. -/
theorem test_met_DscaleHasNoEffect :
    ∃ s s' : State, DecodesHeader s .numdec 6 0 6 0 0x8001 ∧ DecodesHeader s' .numdec 6 0 6 0 0x9F81 ∧
      0x8001 / 2 ^ 14 = 2 ∧ 0x8001 / 2 ^ 13 = 0x9F81 / 2 ^ 13 ∧ 0x8001 % 2 ^ 7 = 0x9F81 % 2 ^ 7 ∧
      s.buflen = s'.buflen ∧ ∀ a, 0 + 2 ≤ a → byteAt s a = byteAt s' a := by
  refine ⟨{ bufState [] 6 0 6 with mem := [(0, 0x01), (1, 0x80), (2, 1), (4, 0x29), (5, 9)] },
    { bufState [] 6 0 6 with mem := [(0, 0x81), (1, 0x9F), (2, 1), (4, 0x29), (5, 9)] },
    by unfold DecodesHeader; decide, by unfold DecodesHeader; decide, by decide, by decide, by decide, rfl,
    fun a ha => ?_⟩
  have h0 : 0 ≠ a := by omega
  have h1 : 1 ≠ a := by omega
  simp only [byteAt, Memory.read, h0, h1, if_false]

theorem test_met_FixedHeaderRowsComplete :
    2 ≤ (bufState [0, 0xC0] 2 0 2).len.toNat ∧ (bufState [0, 0xC0] 2 0 2).pos.toNat + 2 ≤ (bufState [0, 0xC0] 2 0 2).buflen.toNat := by
  decide

/-- An odd range, one that ends past the buffer, one that ends at its end; with one digit, weight 0 is the least that is INT
and weight -1 the greatest that is FLOAT. -/
theorem test_met_ShortRowCompletes :
    (2 ≤ (bufState [0, 0x80, 1] 3 0 3).len.toNat ∧ 0 + 2 ≤ (bufState [0, 0x80, 1] 3 0 3).buflen.toNat ∧
      (bufState [0, 0x80, 1] 3 0 3).len.toNat / 2 = 0 + 1 ∧ (bufState [0, 0x80, 1] 3 0 3).len.toNat % 2 = 1) ∧
    ((bufState [0, 0x80, 1] 3 0 4).len.toNat / 2 = 1 + 1 ∧ (bufState [0, 0x80, 1] 3 0 4).len.toNat % 2 = 0 ∧
      0 + (bufState [0, 0x80, 1] 3 0 4).len.toNat > (bufState [0, 0x80, 1] 3 0 4).buflen.toNat) ∧
    ((bufState [0, 0x80, 1, 0] 4 0 4).len.toNat / 2 = 1 + 1 ∧ (bufState [0, 0x80, 1, 0] 4 0 4).len.toNat % 2 = 0 ∧
      0 + (bufState [0, 0x80, 1, 0] 4 0 4).len.toNat ≤ (bufState [0, 0x80, 1, 0] 4 0 4).buflen.toNat) ∧
    ((1 : Int) ≤ (0 : BitVec 7).toInt + 1 ∧ (0x7F : BitVec 7).toInt + 1 < (1 : Int)) := by decide

/-- `POS` 5 pads by 3 (P4): 8 bytes are too few, 9 are enough; the length word ends at the buffer's end, and one past
it. In the last clause `NUMDEC` on the packed numeric succeeds (V4), and fails (V47). -/
theorem test_met_NumfdecIsNumdecOnItsField :
    3 = (4 - (bufState [] 16 5 8).pos.toNat % 4) % 4 ∧ (bufState [] 16 5 8).len.toNat < 3 + 6 ∧
    (3 + 6 ≤ (bufState [] 11 5 9).len.toNat ∧ (bufState [] 11 5 9).pos.toNat + 3 + 4 > (bufState [] 11 5 9).buflen.toNat) ∧
    (3 + 6 ≤ (bufState [] 12 5 9).len.toNat ∧ (bufState [] 12 5 9).pos.toNat + 3 + 4 ≤ (bufState [] 12 5 9).buflen.toNat) ∧
    ask (fun u => u.status.err) (exec .numdec (bufState [0xFF, 0x80, 0x88, 0x13] 4 0 4)) = some .none ∧
    ask (fun u => u.status.err) (exec .numdec (bufState [0xFF, 0x80, 0x88, 0x13] 4 0 1)) = some .malformedHeader := by
  decide +kernel

theorem test_met_NumdecRunsHeaderRow :
    readU16LE (bufState [1, 0x80] 2 0 2) (bufState [1, 0x80] 2 0 2).pos.toNat = .ok 0x8001 := by decide

/-- Two buffers that differ only after the range. -/
theorem test_met_NumdecReadsOnlyItsRange :
    (bufState [0, 0xC0] 3 0 2).pos = (bufState [0, 0xC0, 7] 3 0 2).pos ∧ (bufState [0, 0xC0] 3 0 2).len = (bufState [0, 0xC0, 7] 3 0 2).len ∧
    (bufState [0, 0xC0] 3 0 2).buflen = (bufState [0, 0xC0, 7] 3 0 2).buflen ∧
    ∀ a, a < 0 + 2 → 0 ≤ a → byteAt (bufState [0, 0xC0] 3 0 2) a = byteAt (bufState [0, 0xC0, 7] 3 0 2) a := by decide

theorem test_met_CommandsNeverWriteTheBuffer :
    exec .eofflen (bufState [1] 1 0 0) = .next (succeeded 1 Results.cleared (bufState [1] 1 0 0)) := rfl

theorem test_met_ErrorEntryChangesOnlyStatus :
    exec .etype (withEword 0x60000000) = .next (failed 3 .malformedHeader .entryTag (withEword 0x60000000)) ∧
    ErrCode.malformedHeader ≠ .none ∧ decodeCommand 3 = .etype := ⟨rfl, by decide, by decide⟩

theorem test_met_EveryCommandCompletes :
    1 ≤ (1 : OpCode).toNat ∧ (1 : OpCode).toNat ≤ 7 ∧ 1 ≤ (7 : OpCode).toNat ∧ (7 : OpCode).toNat ≤ 7 := by decide

/-- Every pair of a command's list is met by a state: the five of `NUMFDEC`. -/
theorem test_met_CommandOutcomeTable :
    [bufState [0, 0, 0, 0, 0, 0xC0] 6 0 6, bufState [] 0 0 6, bufState [0, 0, 0, 0, 1, 0xC0] 6 0 6, bufState [] 6 0 0, bufState [] 6 0 6].map
      (fun s => ask (fun t => (t.status.err, t.status.sub)) (exec .numfdec s)) =
    [some (.none, .none), some (.outOfBounds, .none), some (.malformedHeader, .numSpecial),
      some (.malformedHeader, .numRange), some (.unsupportedFeature, .numLong)] := by decide

/-- Two states that agree on what a command may read and differ elsewhere. -/
theorem test_met_CommandsArePureAndIdempotent :
    SameInputs (withEword 5) { withEword 5 with seen := [1], status := okStatus 7 } ∧
    ask statusOf (exec .edec (withEword 5)) = some 0x201 ∧
    ask statusOf (exec .edec { withEword 5 with seen := [1], status := okStatus 7 }) = some 0x201 :=
  ⟨⟨rfl, rfl, rfl, rfl, fun _ => rfl⟩, by decide, by decide⟩

/-- A state after a command, with another action than a reset to come. -/
theorem test_met_NotYetParsedOnlyFromReset :
    ask statusOf (exec .edec State.reset) = some 0x201 ∧
    ∃ s : State, s.status.err ≠ .notYetParsed ∧ s.status.done = true ∧ s.pending.head? ≠ some .reset ∧
      ask statusOf (step s) = some 0x081 :=
  ⟨by decide, hosting (.readReg 1) { State.reset with status := okStatus 1 }, by decide⟩

/-- Before the first command: a host that writes an operand register, one that resets, one that does nothing. -/
theorem test_met_NotYetParsedStays :
    ∀ s ∈ [hosting (.writeReg 3 7) State.reset, hosting .reset State.reset, State.reset],
      s.status.err = .notYetParsed ∧ s.status.done = false ∧ (∀ v, s.pending.head? ≠ some (.writeReg 0 v)) ∧
      ask statusOf (step s) = some 0x0000000A := by
  intro s hs
  simp only [List.mem_cons, List.not_mem_nil, or_false] at hs
  rcases hs with rfl | rfl | rfl <;>
    exact ⟨by decide, by decide, fun v => by simp [hosting, State.reset], by decide⟩

theorem test_met_StepKeepsMemoryCanonical :
    Memory.wf (hosting (.writeBuffer 3 9) (bufState [1] 1 0 0)).mem = true ∧
    ask (fun t => byteAt t 3) (step (hosting (.writeBuffer 3 9) (bufState [1] 1 0 0))) = some 9 := by decide

theorem test_met_StepKeepsStatusLegal :
    StatusLegal (hosting (.writeReg 0 3) (withEword 0x60000000)) ∧
    ask statusOf (step (hosting (.writeReg 0 3) (withEword 0x60000000))) = some 0x195 := by
  unfold StatusLegal
  decide

/-- A state that holds the results of `EDEC`. -/
theorem test_met_StepKeepsResultsOfLastCommand :
    ResultsOfLastCommand (hosting (.writeReg 0 6) (succeeded 4 { Results.cleared with eTag := 1, eType := 1 } State.reset)) ∧
    ask statusOf (step (hosting (.writeReg 0 6)
      (succeeded 4 { Results.cleared with eTag := 1, eType := 1 } State.reset))) = some 0x335 := by
  unfold ResultsOfLastCommand NumericCleared EntryCleared
  decide +kernel

/-- Where the premise is not empty: `EDEC` on E3. -/
theorem test_met_StepKeepsEntryFields :
    EntryFieldsMakeWord (hosting (.readReg 12) (succeeded 4 { Results.cleared with
      eWord := 0x9000000E, eOfflen := 14, eHasoff := 1, eTag := 1, eType := 1 } State.reset)) ∧
    ask State.seen (step (hosting (.readReg 12) (succeeded 4 { Results.cleared with
      eWord := 0x9000000E, eOfflen := 14, eHasoff := 1, eTag := 1, eType := 1 } State.reset))) = some [0x9000000E] := by
  unfold EntryFieldsMakeWord
  decide

/-- The registers of V1 (INT), V2 (FLOAT) and V19 (NAN). -/
theorem test_met_StepKeepsNumericConsistent :
    NumericConsistent { Results.cleared with
      nKind := .int, nWeight := 1, nNdigits := 2, nCoef := 12345, nIval := 12345, nHdr := 0x8001 } ∧
    NumericConsistent { Results.cleared with
      nKind := .float, nDscale := 4, nNdigits := 2, nShift := 1, nCoef := 12345, nFval := 0x3FF3C083126E978D,
      nHdr := 0x8200 } ∧
    NumericConsistent { Results.cleared with nKind := .nan, nHdr := 0xC000, nFval := 0x7FF8000000000000 } ∧
    ask statusOf (step (hosting (.writeReg 0 6) (bufState [0, 0xC0] 2 0 2))) = some 0x301 := by
  refine ⟨?_, ?_, rfl, by decide⟩
  · show _ ∧ _ ∧ _ ∧ _
    decide +kernel
  · show _ ∧ _ ∧ _ ∧ _ ∧ _
    decide +kernel

end Sys2Proof.Tests
end

section
/-!
SUPPORT. A command reads the operand registers and the buffer and nothing else (R3): every outcome is the same in two
states with `SameInputs`. Since a command changes none of them, running it again changes nothing more.
-/

namespace Sys2Proof.Machine

open Sys2Proof.Safety

/-! ### Outcomes are functions of the inputs -/

section
variable {s s' : State} (h : SameInputs s s')
include h

theorem readU16LE_congr (a : Nat) : readU16LE s a = readU16LE s' a := by
  obtain ⟨hbuflen, -, -, -, hbytes⟩ := h
  simp only [readU16LE_eq, hbuflen, read_eq_of_byteAt (hbytes _)]

theorem readU32LE_congr (a : Nat) : readU32LE s a = readU32LE s' a := by
  obtain ⟨hbuflen, -, -, -, hbytes⟩ := h
  simp only [readU32LE_eq, hbuflen, read_eq_of_byteAt (hbytes _)]

theorem loadOutcome_congr : loadOutcome s = loadOutcome s' := by
  have hread := readU32LE_congr h
  obtain ⟨-, hpos, -, -, -⟩ := h
  simp only [loadOutcome, hread, hpos]

theorem numCore_congr_of_sameInputs (hp n : Nat) : numCore s hp n = numCore s' hp n := by
  obtain ⟨hbuflen, -, -, -, hbytes⟩ := h
  exact numCore_congr hbuflen fun a _ _ => hbytes a

theorem numdecOutcome_congr : numdecOutcome s = numdecOutcome s' := by
  have hcore := numCore_congr_of_sameInputs h
  obtain ⟨-, hpos, hlen, -, -⟩ := h
  simp only [numdecOutcome, hcore, hpos, hlen]

theorem numfdecOutcome_congr : numfdecOutcome s = numfdecOutcome s' := by
  have hread := readU32LE_congr h
  have hcore := numCore_congr_of_sameInputs h
  obtain ⟨-, hpos, hlen, -, -⟩ := h
  simp only [numfdecOutcome, hread, hcore, hpos, hlen]

theorem numRowOutcome_congr (branch : Except Raise Results) : numRowOutcome s branch = numRowOutcome s' branch := by
  have hread := readU16LE_congr h
  obtain ⟨-, hpos, hlen, -, -⟩ := h
  simp only [numRowOutcome, fetchHeader, hread, hpos, hlen]

theorem shortBranch_congr (hp n : Nat) (hdr : Half) : shortBranch s hp n hdr = shortBranch s' hp n hdr := by
  obtain ⟨hbuflen, -, -, -, hbytes⟩ := h
  simp only [shortBranch, accumulate_congr hbuflen _ _ _ fun a _ _ => hbytes a]

/-- R3: with the same inputs an instruction ends the same command with the same outcome, or is refused. -/
theorem exec_congr (i : Instr) :
    (∃ op out, exec i s = .next (issueCommand op out s) ∧ exec i s' = .next (issueCommand op out s')) ∨
    ∃ r, exec i s = .refused r ∧ exec i s' = .refused r := by
  have ⟨_, hpos, hlen, heword, _⟩ := h
  cases i with
  | eofflen | ehasoff | etype | edec => exact .inl ⟨_, _, rfl, by rw [heword]; rfl⟩
  | eload => exact .inl ⟨_, _, rfl, by rw [loadOutcome_congr h]; rfl⟩
  | numdec => exact .inl ⟨_, _, rfl, by rw [numdecOutcome_congr h]; rfl⟩
  | numfdec => exact .inl ⟨_, _, rfl, by rw [numfdecOutcome_congr h]; rfl⟩
  | reservedZero | reservedHigh => exact .inr ⟨_, rfl, rfl⟩
  | entryString | entryNumeric | entryBoolFalse | entryBoolTrue | entryNull | entryContainer | entryReserved6
  | entryReserved7 => exact .inl ⟨_, _, rfl, rfl⟩
  | numLongPos | numLongNeg | numNan | numPinf | numNinf | numSpecialBad =>
    exact .inl ⟨_, _, rfl, by rw [numRowOutcome_congr h]; rfl⟩
  | numShort =>
    exact .inl ⟨_, _, rfl, by rw [numRowOutcome_congr h, shortBranch_congr h, hpos, hlen]; rfl⟩

end

/-! ### Ending a command -/

/-- The result registers after a command are those of its outcome, whatever the state. -/
theorem issueCommand_results_eq (op : OpCode) (out : Except Raise Results) (s s' : State) :
    (issueCommand op out s).results = (issueCommand op out s').results := by cases out <;> rfl

/-- `STATUS` after a command is that of its outcome, whatever the state. -/
theorem issueCommand_status_eq (op : OpCode) (out : Except Raise Results) (s s' : State) :
    (issueCommand op out s).status = (issueCommand op out s').status := by cases out <;> rfl

/-- Ending a command twice with one outcome is ending it once. -/
theorem issueCommand_issueCommand (op : OpCode) (out : Except Raise Results) (s : State) :
    issueCommand op out (issueCommand op out s) = issueCommand op out s := by cases out <;> rfl

/-- A command changes none of the inputs of the next one. -/
theorem sameInputs_issueCommand (op : OpCode) (out : Except Raise Results) (s : State) :
    SameInputs s (issueCommand op out s) := by
  simp [SameInputs, byteAt]

/-! ### The obligation -/

/-- With the same inputs an instruction leaves the same result registers and `STATUS` (R3). -/
theorem exec_results_status_congr {i : Instr} {s s' t t' : State} (h : SameInputs s s')
    (ht : exec i s = .next t) (ht' : exec i s' = .next t') : t.results = t'.results ∧ t.status = t'.status := by
  rcases exec_congr h i with ⟨op, out, he, he'⟩ | ⟨r, he, -⟩
  · cases he.symm.trans ht
    cases he'.symm.trans ht'
    exact ⟨issueCommand_results_eq op out s s', issueCommand_status_eq op out s s'⟩
  · cases he.symm.trans ht

/-- An instruction run again answers the state it answered (R3). -/
theorem exec_idempotent {i : Instr} {s t : State} (ht : exec i s = .next t) : exec i t = .next t := by
  obtain ⟨op, out, rfl, -, -⟩ := exec_next ht
  rcases exec_congr (sameInputs_issueCommand op out s) i with ⟨op', out', he, he'⟩ | ⟨r, he, -⟩
  · have hstate : issueCommand op out s = issueCommand op' out' s :=
      Host.Outcome.next.inj (ht.symm.trans he)
    rw [he', hstate, issueCommand_issueCommand]
  · cases he.symm.trans ht

/-- Settles O53: both clauses follow from `exec_congr`, the second since a command changes none of its own inputs. -/
theorem commandsArePureAndIdempotent : Obligations.CommandsArePureAndIdempotent :=
  ⟨fun _ _ _ _ _ => exec_results_status_congr, fun _ _ _ => exec_idempotent⟩

end Sys2Proof.Machine
end

section
/-!
SUPPORT. The interface registers at reset, `STATUS` as a number, and the host's register accesses that have no effect
(R13, R20, R22).
-/

namespace Sys2Proof.Machine

open Sys2Proof.Safety

/-! ### Register values -/

/-- `CMD` and the unassigned numbers read 0 (R12, R22). -/
theorem regValue_unassigned (s : State) {r : Nat} (h : r ∈ [0, 6, 7, 13, 14, 15] ∨ 27 ≤ r) : regValue s r = 0 := by
  rcases h with h | h
  · simp only [List.mem_cons, List.not_mem_nil, or_false] at h
    rcases h with rfl | rfl | rfl | rfl | rfl | rfl <;> rfl
  · unfold regValue
    split <;> omega

/-- After reset every register but `STATUS` reads 0 (R20). -/
theorem regValue_reset_eq_zero {r : Nat} (hr : r ≠ 1) : regValue State.reset r = 0 := by
  unfold regValue
  split
  · exact absurd rfl hr
  all_goals simp [kindCode, -Nat.reducePow]

/-- `BUFLEN` is 0 after reset, so no byte can be read (R20, R31). -/
theorem memRead_reset (a : Nat) {n : Nat} (hn : 0 < n) : memRead State.reset a n = .error .outOfBounds := by
  have hend : a + n > State.reset.buflen.toNat := by
    rw [reset_buflen]
    show 0 < a + n
    omega
  rw [memRead, if_pos hend]

/-- `STATUS` as a number: each field at its lowest bit (R13). -/
theorem statusWord_toNat (st : Status) : (statusWord st).toNat =
    2 ^ 7 * st.lastop.toNat + 2 ^ 4 * (subCode st.sub).toNat + 2 * (errCode st.err).toNat + st.done.toNat := by
  simp only [statusWord, append_toNat, BitVec.toNat_ofBool]
  have hreserved : (0 : BitVec 21).toNat = 0 := rfl
  omega

/-- Settles O1: all operand and result registers are 0 in `State.reset`, `BUFLEN` among them, so no byte is inside the
buffer. -/
theorem resetRegistersHoldZero : Obligations.ResetRegistersHoldZero :=
  ⟨fun _ => regValue_reset_eq_zero, rfl, rfl, fun a _ => memRead_reset a⟩

/-- Settles O3: the layout is `statusWord_toNat`, the codes are a finite table. -/
theorem statusWordLayout : Obligations.StatusWordLayout := by
  refine ⟨fun st => ?_, rfl, rfl⟩
  rw [statusWord_toNat]
  cases st.done <;> simp <;> omega

/-- Settles O6: `writeOperand` knows registers 2 to 5 only, and `regValue` has no arm for an unassigned number. -/
theorem otherRegisterWritesIgnored : Obligations.OtherRegisterWritesIgnored := by
  refine ⟨fun s r v rest hp hr => ?_, fun s r hr => regValue_unassigned s ?_⟩
  · rw [step_write hp (by omega), writeOperand_other] <;> omega
  · exact hr.imp_left (List.mem_cons_of_mem 0)

/-- Settles O9, by the two step rules. -/
theorem stepRunsDecodedCommand : Obligations.StepRunsDecodedCommand :=
  ⟨fun _ _ _ => step_command, fun _ => step_idle⟩

end Sys2Proof.Machine
end

section
/-!
SUPPORT. The invariants that speak of `STATUS` and the result registers: only a command and the reset event change them
(`step_status_results`), so each invariant is a fact about `issueCommand` and one about the reset values.
-/

namespace Sys2Proof.Machine

open Sys2Proof.Safety

/-- A step leaves `STATUS` and the result registers as they were, or resets them, or runs an instruction to its end. -/
theorem step_status_results {s t : State} (h : step s = .next t) :
    (t.status = s.status ∧ t.results = s.results) ∨
    (t.status = Status.afterReset ∧ t.results = Results.cleared) ∨
    ∃ i u, exec i u = .next t := by
  rcases step_cases h with ⟨-, rfl⟩ | ⟨a, rest, -, hact⟩
  · exact .inl ⟨rfl, rfl⟩
  rcases hact with ⟨v, op, out, -, -, hexec⟩ | ⟨r, v, -, -, rfl⟩ | ⟨r, -, rfl⟩ | ⟨o, b, -, rfl⟩ | ⟨bs, -, rfl⟩ |
    ⟨-, rfl⟩
  case inl => exact .inr (.inr ⟨_, _, hexec⟩)
  case inr.inl => exact .inl ⟨writeOperand_status .., writeOperand_results ..⟩
  case inr.inr.inr.inr.inr => exact .inr (.inl ⟨rfl, rfl⟩)
  all_goals exact .inl ⟨rfl, rfl⟩

/-! ### STATUS (R13, R156) -/

/-- What a command raises is a pair of R156. -/
theorem legalPair_raise (e : Raise) : legalPair (raiseErr e) (raiseSub e) = true := by cases e <;> rfl

/-- NotYetParsed is no error of a command (R155). -/
theorem raiseErr_ne_notYetParsed (e : Raise) : raiseErr e ≠ .notYetParsed := by cases e <;> decide

/-- A command ends in a pair of R156. -/
theorem legalPair_issueCommand (op : OpCode) (out : Except Raise Results) (s : State) :
    legalPair (issueCommand op out s).status.err (issueCommand op out s).status.sub = true := by
  cases out with
  | ok r => rfl
  | error e => exact legalPair_raise e

/-- No command ends in NotYetParsed (R155). -/
theorem issueCommand_err_ne_notYetParsed (op : OpCode) (out : Except Raise Results) (s : State) :
    (issueCommand op out s).status.err ≠ .notYetParsed := by
  cases out with
  | ok r => simp
  | error e => exact raiseErr_ne_notYetParsed e

theorem statusLegal_issueCommand {op : OpCode} (out : Except Raise Results) (s : State) (h0 : op ≠ 0)
    (h7 : op.toNat ≤ 7) : StatusLegal (issueCommand op out s) :=
  ⟨legalPair_issueCommand op out s, by simp [issueCommand_err_ne_notYetParsed], by simpa using h0, by simpa using h7⟩

theorem statusLegal_of_afterReset {s : State} (h : s.status = Status.afterReset) : StatusLegal s := by
  rw [StatusLegal, h]
  decide

/-- Settles O56: every command ends in a legal pair with `done` 1 and its own code, and no other action but the reset
event changes `STATUS`. -/
theorem stepKeepsStatusLegal : Obligations.StepKeepsStatusLegal := by
  intro s t hs hstep
  rcases step_status_results hstep with ⟨hstatus, -⟩ | ⟨hstatus, -⟩ | ⟨i, u, hexec⟩
  · rwa [StatusLegal, hstatus]
  · exact statusLegal_of_afterReset hstatus
  · obtain ⟨op, out, rfl, h0, h7⟩ := exec_next hexec
    exact statusLegal_issueCommand out u h0 h7

/-! ### What an outcome writes

Every outcome that succeeds is one of a few records over the cleared registers. -/

/-- `ETYPE` writes the word, its tag and a variant (R82). -/
theorem typeOutcome_ok {e : Word} {r : Results} (h : typeOutcome e = .ok r) :
    ∃ t, r = { Results.cleared with eWord := e, eTag := entryTag e, eType := t } := by
  unfold typeOutcome at h
  split at h <;> cases h
  exact ⟨_, rfl⟩

/-- `EDEC` writes a whole entry word (R83). -/
theorem entryOutcome_ok {e : Word} {r : Results} (h : entryOutcome e = .ok r) : r = entryResults e (entryTag e) := by
  rcases entryOutcome_cases e with ⟨-, he⟩ | ⟨-, he⟩ <;> cases he.symm.trans h
  rfl

/-- `ELOAD` writes what `EDEC` writes for some word (R84). -/
theorem loadOutcome_ok {s : State} {r : Results} (h : loadOutcome s = .ok r) : ∃ e, entryOutcome e = .ok r := by
  unfold loadOutcome at h
  split at h
  · cases h
  · exact ⟨_, h⟩

theorem shortBranch_ok_results {s : State} {hp n : Nat} {hdr : Half} {r : Results}
    (h : shortBranch s hp n hdr = .ok r) : ∃ acc, r = shortResults hdr ((n - 2) / 2) acc := by
  unfold shortBranch at h
  split_ifs at h
  split at h <;> cases h
  exact ⟨_, rfl⟩

theorem specialBranch_ok_results {hdr : Half} {r : Results} (h : specialBranch hdr = .ok r) :
    ∃ k f, r = specialResults k hdr f := by
  unfold specialBranch at h
  split_ifs at h <;> cases h <;> exact ⟨_, _, rfl⟩

/-- The Numeric Decoder succeeds by the Short branch or the Special branch only (R104). -/
theorem headerBranch_ok {s : State} {hp n : Nat} {hdr : Half} {r : Results} (h : headerBranch s hp n hdr = .ok r) :
    shortBranch s hp n hdr = .ok r ∨ specialBranch hdr = .ok r := by
  unfold headerBranch at h
  split_ifs at h
  · exact .inl h
  · exact .inr h
  · cases h

/-- `Core` succeeds only past the header word (R101 to R103). -/
theorem numCore_ok {s : State} {hp n : Nat} {r : Results} (h : numCore s hp n = .ok r) :
    ∃ hdr, headerBranch s hp n hdr = .ok r := by
  unfold numCore at h
  split at h
  · cases h
  · exact ⟨_, h⟩

/-- A header word's row succeeds only when its branch does (R101). -/
theorem numRowOutcome_ok {s : State} {branch : Except Raise Results} {r : Results}
    (h : numRowOutcome s branch = .ok r) : branch = .ok r := by
  unfold numRowOutcome at h
  split at h
  · cases h
  · exact h

/-- `NUMFDEC` writes `N_LENWORD` over what `Core` writes (R121). -/
theorem numfdecOutcome_ok {s : State} {r : Results} (h : numfdecOutcome s = .ok r) :
    ∃ hp n r' lw, numCore s hp n = .ok r' ∧ r = { r' with nLenword := lw } := by
  simp only [numfdecOutcome] at h
  split_ifs at h
  split at h
  · cases h
  split at h
  · cases h
  next r' hcore =>
    cases h
    exact ⟨_, _, _, _, hcore, rfl⟩

/-! ### The result registers of each command (R21, R184) -/

/-- The result registers are some that the command `op` can write: the `N_*` registers 0 for an entry command, the `E_*`
registers 0 for a numeric one, `N_LENWORD` 0 for `NUMDEC`. -/
def ResultsFit (op : OpCode) (r : Results) : Prop :=
  (op.toNat ≤ 5 → NumericCleared r) ∧ (6 ≤ op.toNat → EntryCleared r) ∧ (op = 6 → r.nLenword = 0)

theorem resultsOfLastCommand_iff (s : State) : ResultsOfLastCommand s ↔
    (s.status.err ≠ .none → s.results = Results.cleared) ∧ ResultsFit s.status.lastop s.results := Iff.rfl

@[simp] theorem numericCleared_cleared : NumericCleared Results.cleared := by simp [NumericCleared]
@[simp] theorem entryCleared_cleared : EntryCleared Results.cleared := by simp [EntryCleared]

theorem resultsFit_cleared (op : OpCode) : ResultsFit op Results.cleared := by simp [ResultsFit]

theorem resultsFit_of_numericCleared {op : OpCode} {r : Results} (hop : op.toNat ≤ 5) (h : NumericCleared r) :
    ResultsFit op r :=
  ⟨fun _ => h, fun h6 => by omega, fun h6 => absurd (h6 ▸ hop) (by decide)⟩

theorem resultsFit_numdec {r : Results} (he : EntryCleared r) (hl : r.nLenword = 0) :
    ResultsFit Config.opNumdec r :=
  ⟨fun h5 => absurd h5 (by decide), fun _ => he, fun _ => hl⟩

theorem resultsFit_numfdec {r : Results} (he : EntryCleared r) : ResultsFit Config.opNumfdec r :=
  ⟨fun h5 => absurd h5 (by decide), fun _ => he, fun h6 => absurd h6 (by decide)⟩

theorem resultsOfLastCommand_of_cleared {s : State} (h : s.results = Results.cleared) : ResultsOfLastCommand s := by
  rw [resultsOfLastCommand_iff, h]
  exact ⟨fun _ => rfl, resultsFit_cleared _⟩

/-- A command leaves the result registers its own when its outcome does so wherever it succeeds. -/
theorem resultsOfLastCommand_issueCommand {op : OpCode} {out : Except Raise Results} (s : State)
    (h : ∀ r, out = .ok r → ResultsFit op r) : ResultsOfLastCommand (issueCommand op out s) := by
  cases out with
  | ok r => exact (resultsOfLastCommand_iff _).mpr ⟨fun herr => absurd rfl herr, h r rfl⟩
  | error e => exact resultsOfLastCommand_of_cleared rfl

/-! #### The Entry Codec -/

/-- A command of code at most 5 owes the `N_*` registers only. -/
theorem resultsOfLastCommand_entry {op : OpCode} {out : Except Raise Results} (s : State) (hop : op.toNat ≤ 5)
    (h : ∀ r, out = .ok r → NumericCleared r) : ResultsOfLastCommand (issueCommand op out s) :=
  resultsOfLastCommand_issueCommand s fun r hr => resultsFit_of_numericCleared hop (h r hr)

theorem numericCleared_entryResults (e : Word) (t : BitVec 3) : NumericCleared (entryResults e t) := by
  simp [NumericCleared, entryResults]

theorem offlenOutcome_numericCleared {e : Word} {r : Results} (h : offlenOutcome e = .ok r) : NumericCleared r := by
  cases h
  simp [NumericCleared]

theorem hasoffOutcome_numericCleared {e : Word} {r : Results} (h : hasoffOutcome e = .ok r) : NumericCleared r := by
  cases h
  simp [NumericCleared]

theorem typeOutcome_numericCleared {e : Word} {r : Results} (h : typeOutcome e = .ok r) : NumericCleared r := by
  obtain ⟨t, rfl⟩ := typeOutcome_ok h
  simp [NumericCleared]

theorem entryOutcome_numericCleared {e : Word} {r : Results} (h : entryOutcome e = .ok r) : NumericCleared r :=
  entryOutcome_ok h ▸ numericCleared_entryResults _ _

theorem loadOutcome_numericCleared {s : State} {r : Results} (h : loadOutcome s = .ok r) : NumericCleared r := by
  obtain ⟨e, he⟩ := loadOutcome_ok h
  exact entryOutcome_numericCleared he

/-! #### The Numeric Decoder -/

theorem shortBranch_resultsFit {s : State} {hp n : Nat} {hdr : Half} {r : Results}
    (h : shortBranch s hp n hdr = .ok r) : ResultsFit Config.opNumdec r := by
  obtain ⟨acc, rfl⟩ := shortBranch_ok_results h
  exact resultsFit_numdec ⟨rfl, rfl, rfl, rfl, rfl⟩ rfl

theorem specialResults_resultsFit (k : Kind) (hdr : Half) (f : BitVec 64) :
    ResultsFit Config.opNumdec (specialResults k hdr f) :=
  resultsFit_numdec ⟨rfl, rfl, rfl, rfl, rfl⟩ rfl

theorem numCore_resultsFit {s : State} {hp n : Nat} {r : Results} (h : numCore s hp n = .ok r) :
    ResultsFit Config.opNumdec r := by
  obtain ⟨hdr, hbranch⟩ := numCore_ok h
  rcases headerBranch_ok hbranch with hshort | hspecial
  · exact shortBranch_resultsFit hshort
  · obtain ⟨k, f, rfl⟩ := specialBranch_ok_results hspecial
    exact specialResults_resultsFit k hdr f

theorem numfdecOutcome_resultsFit {s : State} {r : Results} (h : numfdecOutcome s = .ok r) :
    ResultsFit Config.opNumfdec r := by
  obtain ⟨hp, n, r', lw, hcore, rfl⟩ := numfdecOutcome_ok h
  obtain ⟨-, hentry, -⟩ := numCore_resultsFit hcore
  exact resultsFit_numfdec (hentry (by decide))

/-! #### Every instruction -/

/-- An instruction leaves the result registers those of its command (R21, R184). -/
theorem exec_resultsOfLastCommand {i : Instr} {s t : State} (h : exec i s = .next t) : ResultsOfLastCommand t := by
  cases i with
  | reservedZero | reservedHigh => cases h
  | eofflen =>
    cases h
    exact resultsOfLastCommand_entry s (by decide) fun _ => offlenOutcome_numericCleared
  | ehasoff =>
    cases h
    exact resultsOfLastCommand_entry s (by decide) fun _ => hasoffOutcome_numericCleared
  | etype =>
    cases h
    exact resultsOfLastCommand_entry s (by decide) fun _ => typeOutcome_numericCleared
  | edec =>
    cases h
    exact resultsOfLastCommand_entry s (by decide) fun _ => entryOutcome_numericCleared
  | eload =>
    cases h
    exact resultsOfLastCommand_entry s (by decide) fun _ => loadOutcome_numericCleared
  | entryString | entryNumeric | entryBoolFalse | entryBoolTrue | entryNull | entryContainer =>
    cases h
    exact resultsOfLastCommand_entry s (by decide) fun _ hr => Except.ok.inj hr ▸ numericCleared_entryResults _ _
  | entryReserved6 | entryReserved7 =>
    cases h
    exact resultsOfLastCommand_of_cleared rfl
  | numdec =>
    cases h
    exact resultsOfLastCommand_issueCommand s fun _ => numCore_resultsFit
  | numfdec =>
    cases h
    exact resultsOfLastCommand_issueCommand s fun _ => numfdecOutcome_resultsFit
  | numShort =>
    cases h
    exact resultsOfLastCommand_issueCommand s fun _ hr => shortBranch_resultsFit (numRowOutcome_ok hr)
  | numNan | numPinf | numNinf =>
    cases h
    exact resultsOfLastCommand_issueCommand s fun _ hr =>
      Except.ok.inj (numRowOutcome_ok hr) ▸ specialResults_resultsFit _ _ _
  | numLongPos | numLongNeg | numSpecialBad =>
    cases h
    exact resultsOfLastCommand_issueCommand s fun _ hr => nomatch numRowOutcome_ok hr

/-- Settles O57: every instruction leaves its own result registers, and no other action but the reset event changes
`STATUS` or a result register. -/
theorem stepKeepsResultsOfLastCommand : Obligations.StepKeepsResultsOfLastCommand := by
  intro s t hs hstep
  rcases step_status_results hstep with ⟨hstatus, hresults⟩ | ⟨-, hresults⟩ | ⟨i, u, hexec⟩
  · rwa [ResultsOfLastCommand, hstatus, hresults]
  · exact resultsOfLastCommand_of_cleared hresults
  · exact exec_resultsOfLastCommand hexec

/-! ### The reset state -/

/-- NotYetParsed is no success, so nothing is asked of the entry fields. -/
theorem entryFieldsMakeWord_reset : EntryFieldsMakeWord State.reset :=
  fun ⟨herr, _⟩ => nomatch herr

theorem numericConsistent_cleared : NumericConsistent Results.cleared := ⟨rfl, rfl, rfl, rfl⟩

/-- Settles O60, one invariant at a time. -/
theorem resetStateIsSafe : Obligations.ResetStateIsSafe :=
  ⟨rfl, statusLegal_of_afterReset rfl, resultsOfLastCommand_of_cleared rfl, entryFieldsMakeWord_reset,
    numericConsistent_cleared⟩

end Sys2Proof.Machine
end

section
/-!
SUPPORT. The buffer: its canonical form along a run, the host's two changes of it (R41), the block's bounds-checked
reads (R31 to R33), and that no instruction writes it (R46).
-/

namespace Sys2Proof.Machine

open Sys2Proof.Safety

/-! ### The canonical form -/

/-- Settles O55: only the host's two buffer actions change the buffer, and both write it by `Memory.write`. -/
theorem stepKeepsMemoryCanonical : Obligations.StepKeepsMemoryCanonical := by
  intro s t hwf hstep
  rcases step_cases hstep with ⟨-, rfl⟩ | ⟨a, rest, -, hact⟩
  · exact hwf
  rcases hact with ⟨v, op, out, -, rfl, -⟩ | ⟨r, v, -, -, rfl⟩ | ⟨r, -, rfl⟩ | ⟨o, b, -, rfl⟩ | ⟨bs, -, rfl⟩ |
    ⟨-, rfl⟩
  · simpa using hwf
  · simpa using hwf
  · exact hwf
  · exact Memory.wf_write o b hwf
  · exact Memory.wf_writeBytes bs [] 0 rfl
  · exact hwf

/-! ### The host's changes of the buffer -/

/-- Settles O7, by the read rules of `Memory.write`. -/
theorem bufferWriteChangesOneByte : Obligations.BufferWriteChangesOneByte := by
  intro s a b rest hwf hp
  refine ⟨_, step_writeBuffer hp, ?_, fun c hc => ?_, rfl⟩
  · exact congrArg BitVec.toNat (Memory.read_write_same a b hwf)
  · exact congrArg BitVec.toNat (Memory.read_write_other b hc s.mem)

/-- A buffer of these bytes from offset 0 reads as they do, and as 0 beyond them (log entry 5). -/
theorem Memory.read_writeBytes_empty (bs : List Byte) (a : Nat) :
    Memory.read (Memory.writeBytes [] 0 bs) a = if a < bs.length then bs.getD a 0 else 0 := by
  rw [Memory.read_writeBytes bs [] 0 a rfl]
  simp only [Nat.zero_le, true_and, Nat.zero_add, Nat.sub_zero]
  rfl

/-- Settles O8: the new buffer is written into the empty one, whatever the old one held. -/
theorem bindBufferGivesItsBytes : Obligations.BindBufferGivesItsBytes := by
  intro s bs rest hp
  refine ⟨_, step_bindBuffer hp, fun a => ?_, rfl⟩
  rw [byteAt, Memory.read_writeBytes_empty, apply_ite BitVec.toNat]
  rfl

/-! ### The block's reads -/

/-- `bytesAt` gives the byte at each offset in turn, lowest first. -/
theorem Memory.bytesAt_eq_map (m : Memory) (n : Nat) : ∀ a,
    Memory.bytesAt m a n = (List.range n).map fun k => Memory.read m (a + k) := by
  induction n with
  | zero => exact fun _ => rfl
  | succ n ih =>
    intro a
    have hshift : ∀ k, a + 1 + k = a + (k + 1) := fun k => by omega
    simp [Memory.bytesAt, ih, List.range_succ_eq_map, hshift]

/-- Settles O16: the bounds are the test of `memRead` itself, the bytes are `bytesAt`. -/
theorem memReadChecksBounds : Obligations.MemReadChecksBounds := by
  intro s addr n
  constructor
  · intro hpast
    rw [memRead, if_pos hpast]
  · intro hin
    rw [memRead, if_neg (by omega), Memory.bytesAt_eq_map]

/-- Settles O17: a word made of two or four bytes loses nothing in its register. -/
theorem readsAreLittleEndian : Obligations.ReadsAreLittleEndian := by
  intro s a
  refine ⟨fun h => ?_, fun h => ⟨_, readU16LE_ok h, ?_⟩, fun h => ?_, fun h => ⟨_, readU32LE_ok h, ?_⟩⟩
  · rw [readU16LE_eq, if_pos h]
  · exact Nat.mod_eq_of_lt (halfAt_lt s a)
  · rw [readU32LE_eq, if_pos h]
  · exact Nat.mod_eq_of_lt (wordAt_lt s a)

/-! ### The frame of an instruction -/

/-- Ending a command changes `STATUS` and the result registers only (R21, R140, R159). -/
theorem issueCommand_frame (op : OpCode) (out : Except Raise Results) (s : State) :
    issueCommand op out s =
      { s with status := (issueCommand op out s).status, results := (issueCommand op out s).results } := by
  cases out <;> rfl

/-- Settles O49: every instruction that answers a next state answers one of `issueCommand`. -/
theorem commandsNeverWriteTheBuffer : Obligations.CommandsNeverWriteTheBuffer := by
  intro i s t hexec
  obtain ⟨op, out, rfl, -, -⟩ := exec_next hexec
  exact ⟨fun a => by simp [byteAt], issueCommand_frame op out s⟩

end Sys2Proof.Machine
end

section
/-!
SUPPORT. The decoder against the encoder. The three formats of R67 are told apart by their number of bytes (log entry
8), so decoding a byte string is decoding one word (`decodeWord`). On words the two are inverse to each other: a
well-formed row comes back from its word, and every word is the word of a well-formed row.
-/

namespace Sys2Proof

/-- The row of a word of one of the three formats; `decodeBytes_encodedBytes` ties it to the decoder of byte strings. -/
def decodeWord : Encoded → Instr
  | .command op => decodeCommand op
  | .header h => decodeHeader h
  | .entry e => decodeEntry e

/-! ### Bytes and words (R32, R33, R35, R64) -/

theorem ofNat_leNat_halfBytes (h : Half) : BitVec.ofNat 16 (leNat (halfBytes h)) = h := by
  apply BitVec.eq_of_toNat_eq
  simp only [halfBytes, leNat, extract_toNat, BitVec.toNat_ofNat]
  omega

theorem ofNat_leNat_wordBytes (e : Word) : BitVec.ofNat 32 (leNat (wordBytes e)) = e := by
  apply BitVec.eq_of_toNat_eq
  simp only [wordBytes, leNat, extract_toNat, BitVec.toNat_ofNat]
  omega

theorem halfBytes_ofNat_leNat (b0 b1 : Byte) : halfBytes (BitVec.ofNat 16 (leNat [b0, b1])) = [b0, b1] := by
  simp only [halfBytes, leNat, List.cons.injEq, and_true, ← BitVec.toNat_inj, extract_toNat, BitVec.toNat_ofNat]
  omega

theorem wordBytes_ofNat_leNat (b0 b1 b2 b3 : Byte) :
    wordBytes (BitVec.ofNat 32 (leNat [b0, b1, b2, b3])) = [b0, b1, b2, b3] := by
  simp only [wordBytes, leNat, List.cons.injEq, and_true, ← BitVec.toNat_inj, extract_toNat, BitVec.toNat_ofNat]
  omega

/-- A command code fills the low four bits of its byte (R64). -/
theorem setWidth_ofNat_of_lt {b : Byte} (hb : b.toNat < 16) : (BitVec.ofNat 4 b.toNat).setWidth 8 = b := by
  apply BitVec.eq_of_toNat_eq
  simp only [BitVec.toNat_setWidth, BitVec.toNat_ofNat]
  omega

theorem decodeBytes_command (op : OpCode) : decodeBytes [op.setWidth 8] = .ok (decodeCommand op) := by
  have hop : (op.setWidth 8).toNat = op.toNat := BitVec.toNat_setWidth_of_le (by decide)
  rw [decodeBytes, hop, if_pos op.isLt, BitVec.ofNat_toNat, BitVec.setWidth_eq]

/-- The bytes of a word decode to its row. -/
theorem decodeBytes_encodedBytes (w : Encoded) : decodeBytes (encodedBytes w) = .ok (decodeWord w) := by
  cases w with
  | command op => exact decodeBytes_command op
  | header h => exact congrArg (fun h => Except.ok (decodeHeader h)) (ofNat_leNat_halfBytes h)
  | entry e => exact congrArg (fun e => Except.ok (decodeEntry e)) (ofNat_leNat_wordBytes e)

/-- Only the bytes of a word decode (log entry 8). -/
theorem decodeBytes_ok {bs : List Byte} {i : Instr} (h : decodeBytes bs = .ok i) :
    ∃ w, encodedBytes w = bs ∧ decodeWord w = i := by
  unfold decodeBytes at h
  split at h
  · split_ifs at h with hb
    cases h
    exact ⟨.command _, congrArg (fun b => [b]) (setWidth_ofNat_of_lt hb), rfl⟩
  · cases h
    exact ⟨.header _, halfBytes_ofNat_leNat _ _, rfl⟩
  · cases h
    exact ⟨.entry _, wordBytes_ofNat_leNat _ _ _ _, rfl⟩
  · cases h

/-! ### The word of each row decodes to the row -/

/-- The header words with a row of their own among the Special ones (R59). -/
def specialWords : List Half := [Config.spNan, Config.spPinf, Config.spNinf]

theorem mem_specialWords_iff {h : Half} :
    h ∈ specialWords ↔ h = Config.spNan ∨ h = Config.spPinf ∨ h = Config.spNinf := by
  simp [specialWords]

theorem headerVariant_of_special {h : Half} (hh : h ∈ specialWords) : headerVariant h = Config.ntSpecial := by
  rcases mem_specialWords_iff.mp hh with rfl | rfl | rfl <;> rfl

theorem headerWord_special_eq_iff {b : BitVec 14} {h : Half} (hv : headerVariant h = Config.ntSpecial) :
    headerWord Config.ntSpecial b = h ↔ b = specialBits h := by
  constructor
  · rintro rfl
    exact (headerRest_headerWord _ b).symm
  · rintro rfl
    rw [← hv]
    exact headerWord_fields h

/-- The one check of `WellFormed`: a `NUM.SPECIAL_BAD` term is none of the three special words (R59, R67). -/
theorem wellFormed_numSpecialBad_iff (b : BitVec 14) :
    (Instr.numSpecialBad b).WellFormed = true ↔ headerWord Config.ntSpecial b ∉ specialWords := by
  have hnan : headerVariant Config.spNan = Config.ntSpecial := rfl
  have hpinf : headerVariant Config.spPinf = Config.ntSpecial := rfl
  have hninf : headerVariant Config.spNinf = Config.ntSpecial := rfl
  simp [mem_specialWords_iff, headerWord_special_eq_iff, hnan, hpinf, hninf, Instr.WellFormed, and_assoc]

theorem decodeHeader_longPos (x : BitVec 14) : decodeHeader (headerWord Config.ntLongPos x) = .numLongPos x := by
  rw [decodeHeader, headerVariant_headerWord, if_pos rfl, headerRest_headerWord]

theorem decodeHeader_longNeg (x : BitVec 14) : decodeHeader (headerWord Config.ntLongNeg x) = .numLongNeg x := by
  rw [decodeHeader, headerVariant_headerWord, if_neg (by decide), if_pos rfl, headerRest_headerWord]

theorem decodeHeader_short (s : BitVec 1) (d : BitVec 6) (w : BitVec 7) :
    decodeHeader (shortHeaderWord s d w) = .numShort s d w := by
  rw [decodeHeader, headerVariant_short, if_neg (by decide), if_neg (by decide), if_pos rfl, headerSign_short,
    headerDscale_short, headerWeight_short]

theorem decodeHeader_specialBad {b : BitVec 14} (hb : (Instr.numSpecialBad b).WellFormed = true) :
    decodeHeader (headerWord Config.ntSpecial b) = .numSpecialBad b := by
  rw [wellFormed_numSpecialBad_iff, mem_specialWords_iff, not_or, not_or] at hb
  obtain ⟨hnan, hpinf, hninf⟩ := hb
  rw [decodeHeader, headerVariant_headerWord, if_neg (by decide), if_neg (by decide), if_neg (by decide),
    if_neg hnan, if_neg hpinf, if_neg hninf, headerRest_headerWord]

/-- A well-formed row is what its word decodes to. -/
theorem decodeWord_encode {i : Instr} (hi : i.WellFormed = true) : decodeWord (encode i) = i := by
  cases i with
  | eofflen | ehasoff | etype | edec | eload | numdec | numfdec | reservedZero | numNan | numPinf | numNinf => rfl
  | reservedHigh low =>
    revert low
    decide
  | entryString | entryNumeric | entryBoolFalse | entryBoolTrue | entryNull | entryContainer | entryReserved6
  | entryReserved7 =>
    simp only [encode, decodeWord, decodeEntry, entryTag_entryWord, entryHasoff_entryWord, entryOfflen_entryWord]
    rfl
  | numLongPos x => exact decodeHeader_longPos x
  | numLongNeg x => exact decodeHeader_longNeg x
  | numShort s d w => exact decodeHeader_short s d w
  | numSpecialBad b => exact decodeHeader_specialBad hi

/-- Settles O13: the bytes of the row's word decode as the word does. -/
theorem decodeEncodeRoundTrip : Obligations.DecodeEncodeRoundTrip := by
  intro i hi
  rw [encodeBytes, decodeBytes_encodedBytes, decodeWord_encode hi]

/-! ### Every word is the word of a row -/

theorem exists_encode_command (op : OpCode) : ∃ i : Instr, i.WellFormed = true ∧ encode i = .command op := by
  refine ⟨decodeCommand op, ?_⟩
  revert op
  decide

/-- The eight tags of R52 and R53 are all there are. -/
theorem entryTag_exhaustive (t : BitVec 3) :
    t = Config.tagString ∨ t = Config.tagNumeric ∨ t = Config.tagBoolFalse ∨ t = Config.tagBoolTrue ∨
      t = Config.tagNull ∨ t = Config.tagContainer ∨ t = Config.tagUnused6 ∨ t = Config.tagUnused7 := by
  revert t
  decide

theorem exists_encode_entry (e : Word) : ∃ i : Instr, i.WellFormed = true ∧ encode i = .entry e := by
  rw [← entryWord_fields e]
  generalize entryHasoff e = h, entryOfflen e = o
  rcases entryTag_exhaustive (entryTag e) with ht | ht | ht | ht | ht | ht | ht | ht <;> rw [ht]
  · exact ⟨.entryString h o, rfl, rfl⟩
  · exact ⟨.entryNumeric h o, rfl, rfl⟩
  · exact ⟨.entryBoolFalse h o, rfl, rfl⟩
  · exact ⟨.entryBoolTrue h o, rfl, rfl⟩
  · exact ⟨.entryNull h o, rfl, rfl⟩
  · exact ⟨.entryContainer h o, rfl, rfl⟩
  · exact ⟨.entryReserved6 h o, rfl, rfl⟩
  · exact ⟨.entryReserved7 h o, rfl, rfl⟩

/-- The four variants of R55 are all there are. -/
theorem headerVariant_exhaustive (v : BitVec 2) :
    v = Config.ntLongPos ∨ v = Config.ntLongNeg ∨ v = Config.ntShort ∨ v = Config.ntSpecial := by
  revert v
  decide

theorem exists_encode_special {h : Half} (hh : h ∈ specialWords) :
    ∃ i : Instr, i.WellFormed = true ∧ encode i = .header h := by
  rcases mem_specialWords_iff.mp hh with rfl | rfl | rfl
  · exact ⟨.numNan, rfl, rfl⟩
  · exact ⟨.numPinf, rfl, rfl⟩
  · exact ⟨.numNinf, rfl, rfl⟩

theorem exists_encode_header (h : Half) : ∃ i : Instr, i.WellFormed = true ∧ encode i = .header h := by
  by_cases hs : h ∈ specialWords
  · exact exists_encode_special hs
  have hfields := headerWord_fields h
  rcases headerVariant_exhaustive (headerVariant h) with hv | hv | hv | hv
  · exact ⟨.numLongPos (headerRest h), rfl, congrArg Encoded.header (hv ▸ hfields)⟩
  · exact ⟨.numLongNeg (headerRest h), rfl, congrArg Encoded.header (hv ▸ hfields)⟩
  · exact ⟨.numShort (headerSign h) (headerDscale h) (headerWeight h), rfl,
      congrArg Encoded.header (shortHeaderWord_fields hv)⟩
  · rw [hv] at hfields
    exact ⟨.numSpecialBad (headerRest h), (wellFormed_numSpecialBad_iff _).mpr (by rwa [hfields]),
      congrArg Encoded.header hfields⟩

/-- Every word of the three formats is the word of a well-formed row (R67). -/
theorem exists_encode (w : Encoded) : ∃ i : Instr, i.WellFormed = true ∧ encode i = w := by
  cases w with
  | command op => exact exists_encode_command op
  | header h => exact exists_encode_header h
  | entry e => exact exists_encode_entry e

/-- The row a word decodes to is well-formed and has that word. -/
theorem encode_decodeWord (w : Encoded) : (decodeWord w).WellFormed = true ∧ encode (decodeWord w) = w := by
  obtain ⟨i, hi, rfl⟩ := exists_encode w
  rw [decodeWord_encode hi]
  exact ⟨hi, rfl⟩

theorem wellFormed_decodeHeader (h : Half) : (decodeHeader h).WellFormed = true :=
  (encode_decodeWord (.header h)).1

theorem encode_decodeHeader (h : Half) : encode (decodeHeader h) = .header h :=
  (encode_decodeWord (.header h)).2

theorem encode_decodeEntry (e : Word) : encode (decodeEntry e) = .entry e :=
  (encode_decodeWord (.entry e)).2

/-- Settles O14: the bytes are those of a word, and the word is that of the row it decodes to. -/
theorem encodeDecodeRoundTrip : Obligations.EncodeDecodeRoundTrip := by
  intro bs i hdec
  obtain ⟨w, rfl, rfl⟩ := decodeBytes_ok hdec
  obtain ⟨hwf, henc⟩ := encode_decodeWord w
  exact ⟨hwf, congrArg encodedBytes henc⟩

/-- Settles O12: fourteen fixed words, each decoded by evaluation. -/
theorem specWordsDecode : Obligations.SpecWordsDecode := by
  refine ⟨?_, ?_, ?_⟩ <;> decide

end Sys2Proof
end

section
/-!
SUPPORT. The table's rows (R67): which rows a format has, which of them a word matches, and the row of the decoded word.
-/

namespace Sys2Proof

/-! ### The fixed bits of a row -/

/-- A row of the entry format matches the words of its tag (R51, R52). -/
theorem matchesRow_entry_iff (e : Word) (v : Nat) :
    matchesRow e.toNat ⟨.entry32, 28, 3, v⟩ = true ↔ v = (entryTag e).toNat := by
  rw [entryTag, extract_toNat, matchesRow, beq_iff_eq, eq_comm]

/-- A row of the header format with two fixed bits matches the words of its variant (R55). -/
theorem matchesRow_header_iff (h : Half) (v : Nat) :
    matchesRow h.toNat ⟨.numhdr16, 14, 2, v⟩ = true ↔ v = (headerVariant h).toNat := by
  rw [headerVariant, extract_toNat, matchesRow, beq_iff_eq, eq_comm]

/-- A row with all sixteen bits fixed matches its own word alone (R59). -/
theorem matchesRow_special_iff (h w : Half) :
    matchesRow h.toNat ⟨.numhdr16, 0, 16, w.toNat⟩ = true ↔ w = h := by
  rw [matchesRow, beq_iff_eq, pow_zero, Nat.div_one, Nat.mod_eq_of_lt h.isLt, BitVec.toNat_inj, eq_comm]

/-! ### The rows of each format -/

/-- The rows of the format `CMD4`: eight codes of four fixed bits, and bit 3 alone for codes 8 to 15 (R64, R66). -/
def commandRows : List TableRow := ⟨.cmd4, 3, 1, 1⟩ :: (List.range 8).map fun v => ⟨.cmd4, 0, 4, v⟩

theorem tableRow_mem_commandRows {i : Instr} (hi : (tableRow i).format = .cmd4) : tableRow i ∈ commandRows := by
  cases i with
  | eofflen | ehasoff | etype | edec | eload | numdec | numfdec | reservedZero | reservedHigh =>
    simp [tableRow, commandRows]
  | _ => cases hi

theorem tableRow_of_entry {i : Instr} (hi : (tableRow i).format = .entry32) :
    ∃ v, tableRow i = ⟨.entry32, 28, 3, v⟩ := by
  cases i with
  | entryString | entryNumeric | entryBoolFalse | entryBoolTrue | entryNull | entryContainer | entryReserved6
  | entryReserved7 => exact ⟨_, rfl⟩
  | _ => cases hi

theorem tableRow_of_header {i : Instr} (hi : (tableRow i).format = .numhdr16) :
    (∃ v, tableRow i = ⟨.numhdr16, 14, 2, v⟩) ∨ ∃ w ∈ specialWords, tableRow i = ⟨.numhdr16, 0, 16, w.toNat⟩ := by
  cases i with
  | numLongPos | numLongNeg | numShort | numSpecialBad => exact .inl ⟨_, rfl⟩
  | numNan => exact .inr ⟨Config.spNan, by simp [specialWords], rfl⟩
  | numPinf => exact .inr ⟨Config.spPinf, by simp [specialWords], rfl⟩
  | numNinf => exact .inr ⟨Config.spNinf, by simp [specialWords], rfl⟩
  | _ => cases hi

theorem tableRow_numSpecialBad (b : BitVec 14) :
    tableRow (.numSpecialBad b) = ⟨.numhdr16, 14, 2, Config.ntSpecial.toNat⟩ := rfl

/-! ### The row of the decoded word -/

theorem tableRow_of_encode_entry {i : Instr} {e : Word} (hi : encode i = .entry e) :
    tableRow i = ⟨.entry32, 28, 3, (entryTag e).toNat⟩ := by
  cases i with
  | entryString | entryNumeric | entryBoolFalse | entryBoolTrue | entryNull | entryContainer | entryReserved6
  | entryReserved7 =>
    cases hi
    rw [entryTag_entryWord]
    rfl
  | _ => cases hi

theorem tableRow_decodeEntry (e : Word) : tableRow (decodeEntry e) = ⟨.entry32, 28, 3, (entryTag e).toNat⟩ :=
  tableRow_of_encode_entry (encode_decodeEntry e)

/-- The rows of NaN, +Infinity and -Infinity. -/
def specialRows : List Instr := [.numNan, .numPinf, .numNinf]

theorem decodeHeader_mem_specialRows {h : Half} (hh : h ∈ specialWords) : decodeHeader h ∈ specialRows := by
  rcases mem_specialWords_iff.mp hh with rfl | rfl | rfl <;> decide

theorem tableRow_decodeHeader_special {h : Half} (hh : h ∈ specialWords) :
    tableRow (decodeHeader h) = ⟨.numhdr16, 0, 16, h.toNat⟩ := by
  rcases mem_specialWords_iff.mp hh with rfl | rfl | rfl <;> rfl

/-- A well-formed row whose word is none of the special ones is none of their rows and fixes the variant alone. -/
theorem tableRow_of_encode_header {i : Instr} {h : Half} (hi : encode i = .header h) (hh : h ∉ specialWords) :
    i ∉ specialRows ∧ tableRow i = ⟨.numhdr16, 14, 2, (headerVariant h).toNat⟩ := by
  cases i with
  | numLongPos | numLongNeg | numSpecialBad =>
    cases hi
    rw [headerVariant_headerWord]
    exact ⟨by simp [specialRows], rfl⟩
  | numShort =>
    cases hi
    rw [headerVariant_short]
    exact ⟨by simp [specialRows], rfl⟩
  | numNan | numPinf | numNinf =>
    cases hi
    exact absurd (by simp [specialWords]) hh
  | _ => cases hi

theorem tableRow_decodeHeader_other {h : Half} (hh : h ∉ specialWords) :
    decodeHeader h ∉ specialRows ∧ tableRow (decodeHeader h) = ⟨.numhdr16, 14, 2, (headerVariant h).toNat⟩ :=
  tableRow_of_encode_header (encode_decodeHeader h) hh

/-! ### A word selects its row -/

theorem matchesRow_command_iff (op : OpCode) :
    ∀ r ∈ commandRows, matchesRow op.toNat r = true ↔ r = tableRow (decodeCommand op) := by
  revert op
  decide

theorem entry_selects_row (e : Word) {i : Instr} (hi : (tableRow i).format = .entry32) :
    matchesRow e.toNat (tableRow i) = true ↔ tableRow i = tableRow (decodeEntry e) := by
  obtain ⟨v, hrow⟩ := tableRow_of_entry hi
  simp [hrow, matchesRow_entry_iff, tableRow_decodeEntry]

/-- A special word matches its own row and, by its variant, that of `NUM.SPECIAL_BAD` (R59, R67). -/
theorem special_selects_row {h : Half} (hh : h ∈ specialWords) {i : Instr} (hi : (tableRow i).format = .numhdr16) :
    matchesRow h.toNat (tableRow i) = true ↔
      tableRow i = tableRow (decodeHeader h) ∨ tableRow i = tableRow (.numSpecialBad 0) := by
  rcases tableRow_of_header hi with ⟨v, hrow⟩ | ⟨w, -, hrow⟩
  · simp [hrow, tableRow_numSpecialBad, matchesRow_header_iff, tableRow_decodeHeader_special hh,
      headerVariant_of_special hh]
  · simp [hrow, tableRow_numSpecialBad, matchesRow_special_iff, tableRow_decodeHeader_special hh, BitVec.toNat_inj]

/-- Any other header word matches the row of its variant alone. -/
theorem header_selects_row {h : Half} (hh : h ∉ specialWords) {i : Instr} (hi : (tableRow i).format = .numhdr16) :
    matchesRow h.toNat (tableRow i) = true ↔ tableRow i = tableRow (decodeHeader h) := by
  rw [(tableRow_decodeHeader_other hh).2]
  rcases tableRow_of_header hi with ⟨v, hrow⟩ | ⟨w, hw, hrow⟩
  · simp [hrow, matchesRow_header_iff]
  · have hne : w ≠ h := fun heq => hh (heq ▸ hw)
    simp [hrow, matchesRow_special_iff, hne]

/-- Settles O15, format by format: a row's fixed bits are compared with the same field of the word. -/
theorem wordsSelectTheirRow : Obligations.WordsSelectTheirRow := by
  refine ⟨fun op i hi => ?_, fun e i => entry_selects_row e, fun h i hi => ?_⟩
  · exact matchesRow_command_iff op _ (tableRow_mem_commandRows hi)
  by_cases hh : h ∈ specialWords
  · have hdec : decodeHeader h ∈ [.numNan, .numPinf, .numNinf] := decodeHeader_mem_specialRows hh
    simp only [special_selects_row hh hi, hdec, and_true]
  · have hdec : decodeHeader h ∉ [.numNan, .numPinf, .numNinf] := (tableRow_decodeHeader_other hh).1
    simp only [header_selects_row hh hi, hdec, and_false, or_false]

end Sys2Proof
end

section
/-!
SUPPORT. A data word run as its row is run as the command that decodes it (log entry 6), and the next step runs a table
word placed by `withFetchWord` (log entry 7).
-/

namespace Sys2Proof.Machine

open Sys2Proof.Safety

/-! ### Entry rows under `EDEC` (R83, R85 to R92) -/

theorem entryOutcome_entryWord_ok {t ty : BitVec 3} (ht : typeOfTag t = .ok ty) (h : BitVec 1) (o : BitVec 28) :
    entryOutcome (entryWord t h o) = .ok (entryResults (entryWord t h o) ty) := by
  simp only [entryOutcome, entryTag_entryWord, ht]

theorem entryOutcome_entryWord_error {t : BitVec 3} {r : Raise} (ht : typeOfTag t = .error r) (h : BitVec 1)
    (o : BitVec 28) : entryOutcome (entryWord t h o) = .error r := by
  simp only [entryOutcome, entryTag_entryWord, ht]

/-- The row of an entry word ends `EDEC` with that word's outcome. -/
theorem exec_of_encode_entry {i : Instr} {e : Word} (hi : encode i = .entry e) (s : State) :
    exec i s = .next (issueCommand Config.opEdec (entryOutcome e) s) := by
  cases i with
  | entryString | entryNumeric | entryBoolFalse | entryBoolTrue | entryNull | entryContainer =>
    cases hi
    rw [entryOutcome_entryWord_ok rfl]
    rfl
  | entryReserved6 | entryReserved7 =>
    cases hi
    rw [entryOutcome_entryWord_error rfl]
    rfl
  | _ => cases hi

/-- Settles O27: the row `EWORD` decodes to has `EWORD` as its word. -/
theorem edecRunsEntryRow : Obligations.EdecRunsEntryRow := by
  intro s
  rw [exec_of_encode_entry (encode_decodeEntry s.eword)]
  rfl

/-! ### Header rows under `NUMDEC` (R101 to R104, R115 to R120) -/

theorem headerBranch_of_special {h : Half} (hv : headerVariant h = Config.ntSpecial) (s : State) (hp n : Nat) :
    headerBranch s hp n h = specialBranch h := by
  rw [headerBranch, hv, if_neg (by decide), if_pos rfl]

theorem headerBranch_headerWord_long {v : BitVec 2} (hshort : v ≠ Config.ntShort) (hspecial : v ≠ Config.ntSpecial)
    (x : BitVec 14) (s : State) (hp n : Nat) : headerBranch s hp n (headerWord v x) = longBranch := by
  rw [headerBranch, headerVariant_headerWord, if_neg hshort, if_neg hspecial]

theorem headerBranch_shortHeaderWord (sg : BitVec 1) (d : BitVec 6) (w : BitVec 7) (s : State) (hp n : Nat) :
    headerBranch s hp n (shortHeaderWord sg d w) = shortBranch s hp n (shortHeaderWord sg d w) := by
  rw [headerBranch, headerVariant_short, if_pos rfl]

/-- A Special word outside the table (R118). -/
theorem specialBranch_of_not_mem {h : Half} (hh : h ∉ specialWords) : specialBranch h = .error .numSpecial := by
  rw [mem_specialWords_iff, not_or, not_or] at hh
  obtain ⟨hnan, hpinf, hninf⟩ := hh
  rw [specialBranch, if_neg hnan, if_neg hpinf, if_neg hninf]

/-- The row of a header word takes the branch that `NUMDEC` takes on that word. -/
theorem exec_of_encode_header {i : Instr} {h : Half} (hwf : i.WellFormed = true) (hi : encode i = .header h)
    (s : State) : exec i s = runNumRow (headerBranch s s.pos.toNat s.len.toNat h) s := by
  cases i with
  | numLongPos | numLongNeg =>
    cases hi
    rw [headerBranch_headerWord_long]
    · rfl
    all_goals decide
  | numShort =>
    cases hi
    rw [headerBranch_shortHeaderWord]
    rfl
  | numNan | numPinf | numNinf =>
    cases hi
    rw [headerBranch_of_special rfl]
    rfl
  | numSpecialBad b =>
    cases hi
    rw [headerBranch_of_special (headerVariant_headerWord _ _),
      specialBranch_of_not_mem ((wellFormed_numSpecialBad_iff b).mp hwf)]
    rfl
  | _ => cases hi

/-- Once the header word at `POS` is known, `NUMDEC` is the pre-check and that word's branch (R101 to R104). -/
theorem numdecOutcome_of_read {s : State} {h : Half} (hread : readU16LE s s.pos.toNat = .ok h) :
    numdecOutcome s = numRowOutcome s (headerBranch s s.pos.toNat s.len.toNat h) := by
  unfold numdecOutcome numCore numRowOutcome fetchHeader
  split_ifs
  · rfl
  · rw [hread]

/-- Settles O47: the row the fetched word decodes to has that word as its own. -/
theorem numdecRunsHeaderRow : Obligations.NumdecRunsHeaderRow := by
  intro s h hread
  have hrow := exec_of_encode_header (wellFormed_decodeHeader h) (encode_decodeHeader h) s
  rw [runNumRow, ← numdecOutcome_of_read hread] at hrow
  exact hrow.symm

/-! ### The placed word runs next (log entry 7) -/

theorem step_withFetchWord_command (s : State) (w : Nat) :
    step (s.withFetchWord 8 w) = exec (decodeCommand (BitVec.ofNat 4 w)) s :=
  step_command rfl

theorem step_withFetchWord_header (s : State) (w : Nat) :
    step (s.withFetchWord 16 w) = exec .numdec { s.withFetchWord 16 w with pending := s.pending } :=
  step_command (v := Config.opNumdec.toNat) (rest := s.pending) rfl

theorem step_withFetchWord_entry (s : State) (w : Nat) :
    step (s.withFetchWord 32 w) = exec .edec { s.withFetchWord 32 w with pending := s.pending } :=
  step_command (v := Config.opEdec.toNat) (rest := s.pending) rfl

/-- A placed header word ends inside the buffer. -/
theorem two_le_buflen_withFetchWord (s : State) (w : Nat) : 2 ≤ (s.withFetchWord 16 w).buflen.toNat := by
  show 2 ≤ (if s.buflen.toNat < 2 then (2 : Word) else s.buflen).toNat
  split_ifs with hlt
  · exact le_rfl
  · omega

/-- A placed header word stands at offset 0, low byte first (R32). -/
theorem halfAt_withFetchWord {s : State} (hwf : Memory.wf s.mem = true) {w : Nat} (hw : w < 2 ^ 16) :
    halfAt (s.withFetchWord 16 w) 0 = w := by
  have hmem : (s.withFetchWord 16 w).mem = Memory.writeBytes s.mem 0 (natBytes 2 w) := rfl
  have hlow : byteAt (s.withFetchWord 16 w) 0 = w % 256 := by
    rw [byteAt, hmem, Memory.read_writeBytes _ _ _ _ hwf]
    rfl
  have hhigh : byteAt (s.withFetchWord 16 w) 1 = w / 256 % 256 := by
    rw [byteAt, hmem, Memory.read_writeBytes _ _ _ _ hwf]
    rfl
  rw [halfAt, hlow, hhigh]
  omega

/-- Settles O10: the placed word is the one `CMD` takes, the one `NUMDEC` fetches, or `EWORD`. -/
theorem fetchWordRunsDecodedWord : Obligations.FetchWordRunsDecodedWord := by
  intro s hwf
  refine ⟨fun w _ => step_withFetchWord_command s w, fun w hw => ?_, fun w _ => ?_⟩
  · have hread := readU16LE_ok (a := 0) (two_le_buflen_withFetchWord s w)
    rw [halfAt_withFetchWord hwf hw] at hread
    rw [step_withFetchWord_header]
    exact numdecRunsHeaderRow _ _ hread
  · rw [step_withFetchWord_entry]
    exact edecRunsEntryRow _

end Sys2Proof.Machine
end

section
/-!
SUPPORT. The Entry Codec (R80 to R93). `EDEC` and `ELOAD` end with the outcome of one entry word
(`exec_of_decodesEntry`), which the word's tag decides; what they and `ETYPE` report are that word's fields.
-/

namespace Sys2Proof.Machine

open Sys2Proof.Safety

/-! ### The fields of an entry word as numbers (R51) -/

theorem entryTag_toNat (e : Word) : (entryTag e).toNat = e.toNat / 2 ^ 28 % 8 := extract_toNat 28 3 e

theorem entryOfflen_toNat (e : Word) : (entryOfflen e).toNat = e.toNat % 2 ^ 28 := by
  rw [entryOfflen, extract_toNat, pow_zero, Nat.div_one]

theorem entryHasoff_toNat (e : Word) : (entryHasoff e).toNat = e.toNat / 2 ^ 31 := by
  have hlt := e.isLt
  rw [entryHasoff, extract_toNat]
  omega

/-! ### The tag decides the outcome (R52, R53, R82, R83) -/

theorem typeOfTag_legal {t : BitVec 3} (h : t.toNat ≤ 5) : typeOfTag t = .ok t := by
  rcases typeOfTag_cases t with ⟨-, ht⟩ | ⟨h6, -⟩
  · exact ht
  · omega

theorem typeOfTag_unused {t : BitVec 3} (h : 6 ≤ t.toNat) : typeOfTag t = .error .entryTag := by
  rcases typeOfTag_cases t with ⟨h5, -⟩ | ⟨-, ht⟩
  · omega
  · exact ht

theorem typeOutcome_legal {e : Word} (h : (entryTag e).toNat ≤ 5) :
    typeOutcome e = .ok { Results.cleared with eWord := e, eTag := entryTag e, eType := entryTag e } := by
  rw [typeOutcome, typeOfTag_legal h]

theorem typeOutcome_unused {e : Word} (h : 6 ≤ (entryTag e).toNat) : typeOutcome e = .error .entryTag := by
  rw [typeOutcome, typeOfTag_unused h]

theorem entryOutcome_legal {e : Word} (h : (entryTag e).toNat ≤ 5) :
    entryOutcome e = .ok (entryResults e (entryTag e)) := by
  rw [entryOutcome, typeOfTag_legal h]

theorem entryOutcome_unused {e : Word} (h : 6 ≤ (entryTag e).toNat) : entryOutcome e = .error .entryTag := by
  rw [entryOutcome, typeOfTag_unused h]

theorem entryOutcome_ok_tag_le {e : Word} {r : Results} (h : entryOutcome e = .ok r) : (entryTag e).toNat ≤ 5 := by
  rcases entryOutcome_cases e with ⟨h5, -⟩ | ⟨-, he⟩
  · exact h5
  · cases he.symm.trans h

/-! ### The commands on their word -/

theorem exec_etype_legal {s : State} (h : (entryTag s.eword).toNat ≤ 5) : exec .etype s =
    .next (succeeded 3 { Results.cleared with
      eWord := s.eword, eTag := entryTag s.eword, eType := entryTag s.eword } s) := by
  rw [exec, execEtype, typeOutcome_legal h]
  rfl

theorem exec_etype_unused {s : State} (h : 6 ≤ (entryTag s.eword).toNat) :
    exec .etype s = .next (failed 3 .malformedHeader .entryTag s) := by
  rw [exec, execEtype, typeOutcome_unused h]
  rfl

/-- `ELOAD` reads before it looks at any tag (R84). -/
theorem exec_eload_outOfBounds {s : State} (h : s.pos.toNat + 4 > s.buflen.toNat) :
    exec .eload s = .next (failed 5 .outOfBounds .none s) := by
  rw [exec, execEload, loadOutcome, readU32LE_eq, if_pos h]
  rfl

/-- `EDEC` and `ELOAD` end with the outcome of the word they decode (R83, R84). -/
theorem exec_of_decodesEntry {s : State} {i : Instr} {op : OpCode} {e : Word} (h : DecodesEntry s i op e) :
    exec i s = .next (issueCommand op (entryOutcome e) s) := by
  rcases h with ⟨rfl, rfl, rfl⟩ | ⟨rfl, rfl, hfit, hword⟩
  · rfl
  · rw [exec, execEload, loadOutcome, readU32LE_ok hfit, ← hword, BitVec.ofNat_toNat, BitVec.setWidth_eq]
    rfl

theorem exec_legal_of_decodesEntry {s : State} {i : Instr} {op : OpCode} {e : Word} (h : DecodesEntry s i op e)
    (htag : (entryTag e).toNat ≤ 5) : exec i s = .next (succeeded op (entryResults e (entryTag e)) s) := by
  rw [exec_of_decodesEntry h, entryOutcome_legal htag]
  rfl

theorem exec_unused_of_decodesEntry {s : State} {i : Instr} {op : OpCode} {e : Word} (h : DecodesEntry s i op e)
    (htag : 6 ≤ (entryTag e).toNat) : exec i s = .next (failed op .malformedHeader .entryTag s) := by
  rw [exec_of_decodesEntry h, entryOutcome_unused htag]
  rfl

theorem decodesEntry_edec (s : State) : DecodesEntry s .edec 4 s.eword := .inl ⟨rfl, rfl, rfl⟩

/-! ### The fields make up the word (R93) -/

/-- The clause of `EntryFieldsMakeWord` on the result registers: the fields of `E_WORD`, and a variant numbered as its
tag. -/
def EntryFieldsAgree (r : Results) : Prop :=
  r.eWord = r.eHasoff ++ r.eTag ++ r.eOfflen ∧ r.eType = r.eTag ∧ r.eTag.toNat ≤ 5

theorem entryFieldsMakeWord_iff (s : State) : EntryFieldsMakeWord s ↔
    (s.status.err = .none ∧ (s.status.lastop = 4 ∨ s.status.lastop = 5) → EntryFieldsAgree s.results) := Iff.rfl

/-- What a whole entry word writes agrees (R82, R83). -/
theorem entryOutcome_fieldsAgree {e : Word} {r : Results} (h : entryOutcome e = .ok r) : EntryFieldsAgree r := by
  obtain rfl := entryOutcome_ok h
  exact ⟨(entryWord_fields e).symm, rfl, entryOutcome_ok_tag_le h⟩

theorem loadOutcome_fieldsAgree {s : State} {r : Results} (h : loadOutcome s = .ok r) : EntryFieldsAgree r := by
  obtain ⟨e, he⟩ := loadOutcome_ok h
  exact entryOutcome_fieldsAgree he

/-- A command keeps the invariant when its outcome agrees wherever it succeeds: a failed command owes nothing. -/
theorem entryFieldsMakeWord_issueCommand {op : OpCode} {out : Except Raise Results} (s : State)
    (h : ∀ r, out = .ok r → EntryFieldsAgree r) : EntryFieldsMakeWord (issueCommand op out s) := by
  cases out with
  | ok r => exact fun _ => h r rfl
  | error e => exact fun ⟨herr, _⟩ => absurd herr (raiseErr_ne_none e)

/-- Another command than `EDEC` and `ELOAD` owes nothing. -/
theorem entryFieldsMakeWord_of_other {op : OpCode} (out : Except Raise Results) (s : State)
    (hop : ¬ (op = 4 ∨ op = 5)) : EntryFieldsMakeWord (issueCommand op out s) :=
  fun ⟨_, hlast⟩ => absurd (issueCommand_lastop op out s ▸ hlast) hop

/-- An instruction establishes the invariant, whatever held before. -/
theorem exec_entryFieldsMakeWord {i : Instr} {s t : State} (h : exec i s = .next t) : EntryFieldsMakeWord t := by
  cases i with
  | reservedZero | reservedHigh => cases h
  | edec =>
    cases h
    exact entryFieldsMakeWord_issueCommand s fun _ => entryOutcome_fieldsAgree
  | eload =>
    cases h
    exact entryFieldsMakeWord_issueCommand s fun _ => loadOutcome_fieldsAgree
  | entryString | entryNumeric | entryBoolFalse | entryBoolTrue | entryNull | entryContainer | entryReserved6
  | entryReserved7 =>
    rw [exec_of_encode_entry rfl] at h
    cases h
    exact entryFieldsMakeWord_issueCommand s fun _ => entryOutcome_fieldsAgree
  | eofflen | ehasoff | etype | numdec | numfdec | numLongPos | numLongNeg | numShort | numNan | numPinf | numNinf
  | numSpecialBad =>
    cases h
    exact entryFieldsMakeWord_of_other _ s (by decide)

/-- Settles O58: an instruction establishes the invariant, the reset event leaves NotYetParsed, and no other action
changes `STATUS` or a result register. -/
theorem stepKeepsEntryFields : Obligations.StepKeepsEntryFields := by
  intro s t hs hstep
  rcases step_status_results hstep with ⟨hstatus, hresults⟩ | ⟨hstatus, -⟩ | ⟨i, u, hexec⟩
  · rwa [EntryFieldsMakeWord, hstatus, hresults]
  · rw [EntryFieldsMakeWord, hstatus]
    exact fun ⟨herr, _⟩ => nomatch herr
  · exact exec_entryFieldsMakeWord hexec

/-- `EOFFLEN`, `EHASOFF`, `ETYPE` and `EDEC` end with an outcome of `EWORD` alone (R93). -/
theorem exec_registerForm {i : Instr} (hi : i ∈ [.eofflen, .ehasoff, .etype, .edec]) :
    ∃ op, ∃ out : Word → Except Raise Results, ∀ s, exec i s = .next (issueCommand op (out s.eword) s) := by
  simp only [List.mem_cons, List.not_mem_nil, or_false] at hi
  rcases hi with rfl | rfl | rfl | rfl
  · exact ⟨_, offlenOutcome, fun _ => rfl⟩
  · exact ⟨_, hasoffOutcome, fun _ => rfl⟩
  · exact ⟨_, typeOutcome, fun _ => rfl⟩
  · exact ⟨_, entryOutcome, fun _ => rfl⟩

/-- A successful `EDEC` had a legal tag, and reports the fields of `EWORD` (R83). -/
theorem exec_edec_results_of_success {s t : State} (h : exec .edec s = .next t) (herr : t.status.err = .none) :
    t.results = entryResults s.eword (entryTag s.eword) := by
  rcases Nat.lt_or_ge 5 (entryTag s.eword).toNat with htag | htag
  · cases (exec_unused_of_decodesEntry (decodesEntry_edec s) htag).symm.trans h
    cases herr
  · cases (exec_legal_of_decodesEntry (decodesEntry_edec s) htag).symm.trans h
    rfl

/-- Settles O26: the fields `EDEC` reports are those of `entryWord_fields`, and a register-form command reads
nothing but `EWORD`. -/
theorem entryFieldsPartitionWord : Obligations.EntryFieldsPartitionWord := by
  refine ⟨fun s t hexec herr => ?_, fun i s s' t t' hi heword ht ht' => ?_⟩
  · rw [exec_edec_results_of_success hexec herr]
    exact (entryWord_toNat _ _ _).symm.trans (congrArg BitVec.toNat (entryWord_fields s.eword))
  · obtain ⟨op, out, hexec⟩ := exec_registerForm hi
    cases (hexec s).symm.trans ht
    cases (hexec s').symm.trans ht'
    rw [heword]
    exact ⟨issueCommand_results_eq .., issueCommand_status_eq ..⟩

/-! ### The result of each command (R80 to R84) -/

/-- Settles O18: `EOFFLEN` looks at no tag. -/
theorem eofflenResult : Obligations.EofflenResult := fun _ => rfl

/-- Settles O19: `EHASOFF` looks at no tag. -/
theorem ehasoffResult : Obligations.EhasoffResult := fun _ => rfl

/-- Settles O20, by the two sides of the tag test. -/
theorem etypeResult : Obligations.EtypeResult := fun _ => ⟨exec_etype_legal, exec_etype_unused⟩

/-- Settles O21, by the two sides of the tag test on `EWORD`. -/
theorem edecResult : Obligations.EdecResult := fun s =>
  ⟨exec_legal_of_decodesEntry (decodesEntry_edec s), exec_unused_of_decodesEntry (decodesEntry_edec s)⟩

/-- Settles O22: the word at `POS` is the one `ELOAD` decodes, when it fits the buffer. -/
theorem eloadResult : Obligations.EloadResult := by
  intro s
  refine ⟨exec_eload_outOfBounds, fun hfit => ?_⟩
  have hword : (BitVec.ofNat 32 (wordAt s s.pos.toNat)).toNat = wordAt s s.pos.toNat :=
    Nat.mod_eq_of_lt (wordAt_lt s _)
  have hdec : DecodesEntry s .eload 5 (BitVec.ofNat 32 (wordAt s s.pos.toNat)) := .inr ⟨rfl, rfl, hfit, hword⟩
  exact ⟨_, hword, exec_legal_of_decodesEntry hdec, exec_unused_of_decodesEntry hdec⟩

/-! ### Legal and unused tags (R85 to R92) -/

/-- Settles O23: the registers of `entryResults` are the word's fields. -/
theorem legalEntryWordsReportVariant : Obligations.LegalEntryWordsReportVariant := by
  refine ⟨fun s i op e hdec htag => ?_, fun s htag => ?_⟩
  · rw [← entryTag_toNat] at htag ⊢
    exact ⟨_, exec_legal_of_decodesEntry hdec htag, rfl, rfl, entryOfflen_toNat e, entryHasoff_toNat e, rfl,
      numericCleared_entryResults _ _⟩
  · rw [← entryTag_toNat] at htag ⊢
    exact ⟨_, exec_etype_legal htag, rfl⟩

/-- Settles O24: three commands test the tag, two do not look at it. -/
theorem unusedEntryTagsRaise : Obligations.UnusedEntryTagsRaise := by
  refine ⟨fun s i op e hdec htag => ?_, fun s htag => ?_⟩
  · rw [← entryTag_toNat] at htag
    exact exec_unused_of_decodesEntry hdec htag
  · rw [← entryTag_toNat] at htag
    exact ⟨exec_etype_unused htag, ⟨_, eofflenResult s, entryOfflen_toNat s.eword⟩,
      ⟨_, ehasoffResult s, entryHasoff_toNat s.eword⟩⟩

/-! ### The entry rows (log entry 6) -/

/-- A legal row writes the fields it carries. -/
theorem entryResults_entryWord (k t : BitVec 3) (h : BitVec 1) (o : BitVec 28) :
    entryResults (entryWord k h o) t =
      { Results.cleared with eWord := h ++ k ++ o, eOfflen := o, eHasoff := h, eTag := k, eType := t } := by
  simp only [entryResults, entryTag_entryWord, entryHasoff_entryWord, entryOfflen_entryWord]
  rfl

theorem runLegalEntry_eq (k t : BitVec 3) (h : BitVec 1) (o : BitVec 28) (s : State) :
    runLegalEntry k t h o s = .next (succeeded 4 { Results.cleared with
      eWord := h ++ k ++ o, eOfflen := o, eHasoff := h, eTag := k, eType := t } s) := by
  rw [runLegalEntry, entryResults_entryWord]
  rfl

/-- Settles O25: each legal row is `runLegalEntry` of a tag and the variant of the same number. -/
theorem entryRowsComplete : Obligations.EntryRowsComplete := fun h o s =>
  ⟨List.map_congr_left (l := [0, 1, 2, 3, 4, 5]) fun k _ => runLegalEntry_eq k k h o s, rfl, rfl⟩

end Sys2Proof.Machine
end

section
/-!
SUPPORT. The rounding of R112: `rne64` lays a positive rational on the grid of one binade, in units of its last place,
and rounds it to an integer there (`rne64_eq`); a point of the grid that is the rounded one is the nearest pattern
(`isNearestEven_grid`).
-/

namespace Sys2Proof.Machine

open Sys2Proof.Safety

/-! ### Rounding to an integer -/

/-- `m` is the integer nearest to `x`, the even one at a tie. -/
def RoundsHalfEven (m : Nat) (x : ℚ) : Prop :=
  (2 * (m : ℚ) - 1 < 2 * x ∧ 2 * x < 2 * m + 1) ∨ (m % 2 = 0 ∧ 2 * (m : ℚ) - 1 ≤ 2 * x ∧ 2 * x ≤ 2 * m + 1)

/-- Away from a tie `roundHalfEven` is within less than half a unit (R112). -/
theorem roundHalfEven_strict {n d : Nat} (h : 2 * (n % d) ≠ d) (hd : 0 < d) :
    2 * (roundHalfEven n d * d) < 2 * n + d ∧ 2 * n < 2 * (roundHalfEven n d * d) + d := by
  have hdm := Nat.div_add_mod' n d
  have hlt := Nat.mod_lt n hd
  unfold roundHalfEven
  split_ifs with h1 h2
  · omega
  · rw [Nat.add_mul]
    omega
  · omega

theorem roundHalfEven_rounds (n : Nat) {d : Nat} (hd : 0 < d) :
    RoundsHalfEven (roundHalfEven n d) ((n : ℚ) / d) := by
  have hdq : (0 : ℚ) < d := by exact_mod_cast hd
  have hx : (n : ℚ) / d * d = n := div_mul_cancel₀ _ hdq.ne'
  by_cases htie : 2 * (n % d) = d
  · obtain ⟨hlo, hhi⟩ := roundHalfEven_spec n hd
    have hlo' : 2 * ((roundHalfEven n d : ℚ) * d) ≤ 2 * n + d := by exact_mod_cast hlo
    have hhi' : 2 * (n : ℚ) ≤ 2 * (roundHalfEven n d * d) + d := by exact_mod_cast hhi
    refine .inr ⟨roundHalfEven_tie n htie, ?_, ?_⟩ <;>
      exact le_of_mul_le_mul_right (by linarith) hdq
  · obtain ⟨hlo, hhi⟩ := roundHalfEven_strict htie hd
    have hlo' : 2 * ((roundHalfEven n d : ℚ) * d) < 2 * n + d := by exact_mod_cast hlo
    have hhi' : 2 * (n : ℚ) < 2 * (roundHalfEven n d * d) + d := by exact_mod_cast hhi
    refine .inl ⟨?_, ?_⟩ <;>
      exact lt_of_mul_lt_mul_right (by linarith) hdq.le

/-- Both forms of rounding are within half a unit. -/
theorem RoundsHalfEven.bounds {m : Nat} {x : ℚ} (h : RoundsHalfEven m x) :
    2 * (m : ℚ) - 1 ≤ 2 * x ∧ 2 * x ≤ 2 * m + 1 := by
  rcases h with ⟨hlo, hhi⟩ | ⟨-, hlo, hhi⟩
  · exact ⟨hlo.le, hhi.le⟩
  · exact ⟨hlo, hhi⟩

/-- An integer lower bound survives rounding. -/
theorem RoundsHalfEven.le_of_le {m b : Nat} {x : ℚ} (h : RoundsHalfEven m x) (hb : (b : ℚ) ≤ x) : b ≤ m := by
  have hq : (2 * b : ℚ) < 2 * m + 2 := by linarith [h.bounds.2]
  have : 2 * b < 2 * m + 2 := by exact_mod_cast hq
  omega

/-- An integer upper bound survives rounding. -/
theorem RoundsHalfEven.le_of_lt {m b : Nat} {x : ℚ} (h : RoundsHalfEven m x) (hb : x < b) : m ≤ b := by
  have hq : (2 * m : ℚ) < 2 * b + 1 := by linarith [h.bounds.1]
  have : 2 * m < 2 * b + 1 := by exact_mod_cast hq
  omega

/-! ### The grid of a binade -/

/-- The unit in the last place of the binade with exponent field `E + 1`; field 0 has the unit of field 1. -/
def gridUnit (E : Nat) : ℚ := (2 : ℚ) ^ ((E : ℤ) - 1074)

theorem gridUnit_pos (E : Nat) : 0 < gridUnit E := zpow_pos (by norm_num) _

/-- The unit rises with the exponent. -/
theorem gridUnit_mono {E F : Nat} (h : E ≤ F) : gridUnit E ≤ gridUnit F :=
  zpow_le_zpow_right₀ (by norm_num) (by omega)

theorem gridUnit_succ (E : Nat) : gridUnit (E + 1) = 2 * gridUnit E := by
  rw [gridUnit, gridUnit, ← zpow_one_add₀ (by norm_num)]
  congr 1
  push_cast
  ring

/-- The next pattern is one unit further. -/
theorem binary64Value_succ_grid (p : Nat) :
    binary64Value (p + 1) = binary64Value p + gridUnit (p / 2 ^ 52 - 1) := by
  rw [binary64Value_succ, gridUnit]
  congr 2
  omega

/-- The pattern `E * 2^52 + m` is the point `m` of the grid, from the first one of the binade up to the first one of the
next; the lowest binade begins at 0 (gradual underflow). -/
theorem binary64Value_grid {E m : Nat} (hm : m ≤ 2 ^ 53) (hlo : E = 0 ∨ 2 ^ 52 ≤ m) :
    binary64Value (E * 2 ^ 52 + m) = m * gridUnit E := by
  have hfield : ∀ F f, f < 2 ^ 52 →
      binary64Value ((F + 1) * 2 ^ 52 + f) = (2 ^ 52 + f : ℕ) * gridUnit F := fun F f hf => by
    rw [binary64Value_eq _ _ hf, if_neg (by omega), gridUnit]
    congr 2
    omega
  rcases Nat.lt_or_ge m (2 ^ 52) with h52 | h52
  · obtain rfl : E = 0 := by omega
    rw [binary64Value_eq 0 m h52, if_pos rfl, Nat.zero_add]
    rfl
  · rcases Nat.lt_or_ge m (2 ^ 53) with h53 | h53
    · rw [show E * 2 ^ 52 + m = (E + 1) * 2 ^ 52 + (m - 2 ^ 52) by omega, hfield _ _ (by omega),
        show 2 ^ 52 + (m - 2 ^ 52) = m by omega]
    · obtain rfl : m = 2 ^ 53 := by omega
      rw [show E * 2 ^ 52 + 2 ^ 53 = (E + 1 + 1) * 2 ^ 52 + 0 by omega, hfield _ _ (by norm_num), gridUnit_succ]
      push_cast
      ring

/-- The upper neighbour of a point of the grid is at least one unit away. -/
theorem binary64Value_grid_succ_ge {E m : Nat} (hm : m ≤ 2 ^ 53) (hlo : E = 0 ∨ 2 ^ 52 ≤ m) :
    (m + 1) * gridUnit E ≤ binary64Value (E * 2 ^ 52 + m + 1) := by
  have hunit : gridUnit E ≤ gridUnit ((E * 2 ^ 52 + m) / 2 ^ 52 - 1) := gridUnit_mono (by omega)
  rw [binary64Value_succ_grid, binary64Value_grid hm hlo]
  linarith

/-- A rational in a binade that rounds to `m` in its units has `E * 2^52 + m` as nearest pattern. -/
theorem isNearestEven_grid {E m : Nat} {x : ℚ} (hround : RoundsHalfEven m x) (h0 : 0 ≤ x) (hx : x < 2 ^ 53)
    (hlo : E = 0 ∨ 2 ^ 52 ≤ x) (hfin : E ≤ 2044) : IsNearestEven (E * 2 ^ 52 + m) (x * gridUnit E) := by
  have hu := gridUnit_pos E
  have hm : m ≤ 2 ^ 53 := hround.le_of_lt (by exact_mod_cast hx)
  have hm52 : E = 0 ∨ 2 ^ 52 ≤ m := hlo.imp_right fun h => hround.le_of_le (by exact_mod_cast h)
  have hval := binary64Value_grid hm hm52
  have hup := binary64Value_grid_succ_ge hm hm52
  refine isNearestEven_of (by unfold binary64Infinity; omega) ?_ ?_
  · rcases Nat.eq_zero_or_pos (E * 2 ^ 52 + m) with hp | hp
    · exact .inl ⟨hp, by positivity⟩
    refine .inr ⟨E * 2 ^ 52 + m - 1, by omega, ?_⟩
    by_cases hfirst : E ≠ 0 ∧ m = 2 ^ 52
    · have hbelow : binary64Value (E * 2 ^ 52 + m - 1) < binary64Value (E * 2 ^ 52 + m) :=
        binary64Value_strictMono (by omega)
      have hxm : (m : ℚ) ≤ x := by
        rw [hfirst.2]
        exact_mod_cast hlo.resolve_left hfirst.1
      have := mul_le_mul_of_nonneg_right hxm hu.le
      exact .inl (by linarith)
    · have hpred : binary64Value (E * 2 ^ 52 + m - 1) = (m - 1) * gridUnit E := by
        rw [show E * 2 ^ 52 + m - 1 = E * 2 ^ 52 + (m - 1) by omega, binary64Value_grid (by omega) (by omega),
          Nat.cast_pred (by omega)]
      rw [hval, hpred]
      rcases hround with ⟨hr, -⟩ | ⟨heven, hr, -⟩
      · have := mul_lt_mul_of_pos_right hr hu
        exact .inl (by linarith)
      · have := mul_le_mul_of_nonneg_right hr hu.le
        rcases this.lt_or_eq with h | h
        · exact .inl (by linarith)
        · exact .inr ⟨by linarith, by omega⟩
  · rcases hround with ⟨-, hr⟩ | ⟨heven, -, hr⟩
    · have := mul_lt_mul_of_pos_right hr hu
      exact .inl (by linarith)
    · have := mul_le_mul_of_nonneg_right hr hu.le
      have htotal : 2 * (x * gridUnit E) ≤
          binary64Value (E * 2 ^ 52 + m) + binary64Value (E * 2 ^ 52 + m + 1) := by linarith
      exact htotal.lt_or_eq.imp_right fun h => ⟨h, by omega⟩

/-! ### `rne64` -/

/-- The binade `rne64` rounds in, numbered as in `gridUnit`: that of the exponent, or the lowest one (R112). -/
def roundingBinade (num den : Nat) : Nat := (floorLog2 num den + 1022).toNat

/-- The integer `rne64` rounds to in the units of its binade. -/
def roundedSignificand (num den : Nat) : Nat :=
  roundHalfEven (scaledNum num ((roundingBinade num den : ℤ) - 1074))
    (scaledDen den ((roundingBinade num den : ℤ) - 1074))

section
variable {num den : Nat} (hnum : 0 < num) (hden : 0 < den)
include hden

theorem roundedSignificand_rounds :
    RoundsHalfEven (roundedSignificand num den) ((num : ℚ) / den / gridUnit (roundingBinade num den)) := by
  rw [gridUnit, ← scaled_div]
  exact roundHalfEven_rounds _ (scaledDen_pos hden _)

include hnum

theorem scaled_lt : (num : ℚ) / den / gridUnit (roundingBinade num den) < 2 ^ 53 := by
  have hbinade : (2 : ℚ) ^ (floorLog2 num den + 1) ≤ 2 ^ 53 * gridUnit (roundingBinade num den) := by
    rw [gridUnit, ← zpow_natCast, ← zpow_add₀ (by norm_num)]
    exact zpow_le_zpow_right₀ (by norm_num) (by unfold roundingBinade; omega)
  rw [div_lt_iff₀ (gridUnit_pos _)]
  exact (floorLog2_spec hnum hden).2.trans_le hbinade

theorem le_scaled (h : -1022 ≤ floorLog2 num den) :
    (2 : ℚ) ^ 52 ≤ (num : ℚ) / den / gridUnit (roundingBinade num den) := by
  have hbinade : 2 ^ 52 * gridUnit (roundingBinade num den) = (2 : ℚ) ^ floorLog2 num den := by
    rw [gridUnit, ← zpow_natCast, ← zpow_add₀ (by norm_num)]
    congr 1
    unfold roundingBinade
    omega
  rw [le_div_iff₀ (gridUnit_pos _), hbinade]
  exact (floorLog2_spec hnum hden).1

/-- The exponent is below that of any power of two above the quotient. -/
theorem floorLog2_lt {e : Nat} (h : num < den * 2 ^ e) : floorLog2 num den < e := by
  have hdenq : (0 : ℚ) < den := by exact_mod_cast hden
  have hq : (num : ℚ) / den < (2 : ℚ) ^ (e : ℤ) := by
    rw [div_lt_iff₀' hdenq]
    exact_mod_cast h
  exact (zpow_lt_zpow_iff_right₀ (by norm_num)).mp ((floorLog2_spec hnum hden).1.trans_lt hq)

end

/-- A normal significand stands in its binade; `2^53` carries into the next (R112). -/
theorem packNormal_eq {m : Nat} {e : Int} (hm : 2 ^ 52 ≤ m) (he : -1022 ≤ e) :
    packNormal m e = (e + 1022).toNat * 2 ^ 52 + m := by
  unfold packNormal
  split_ifs <;> omega

/-- Both ranges of `rne64` round in the units of a binade (R112). -/
theorem rne64_eq {num den : Nat} (hnum : 0 < num) (hden : 0 < den) :
    rne64 num den = roundingBinade num den * 2 ^ 52 + roundedSignificand num den := by
  unfold rne64
  rw [if_neg hnum.ne']
  split_ifs with he
  · have hunit : floorLog2 num den - 52 = (roundingBinade num den : ℤ) - 1074 := by
      unfold roundingBinade
      omega
    rw [hunit]
    exact packNormal_eq
      ((roundedSignificand_rounds hden).le_of_le (by exact_mod_cast le_scaled hnum hden he)) he
  · have h0 : roundingBinade num den = 0 := by
      unfold roundingBinade
      omega
    rw [roundedSignificand, h0]
    simp

theorem rne64_zero (den : Nat) : rne64 0 den = 0 := if_pos rfl

theorem isNearestEven_zero : IsNearestEven 0 0 := by
  simpa using isNearestEven_grid (E := 0) (m := 0) (x := 0) (.inl (by norm_num)) le_rfl (by norm_num) (.inl rfl)
    (by norm_num)

/-- With an exponent below that of infinity the rounded point of the grid is the nearest pattern. -/
theorem rne64_isNearestEven_of_pos {num den : Nat} (hnum : 0 < num) (hden : 0 < den)
    (hexp : floorLog2 num den ≤ 1022) : IsNearestEven (rne64 num den) ((num : ℚ) / den) := by
  have hlo : roundingBinade num den = 0 ∨ (2 : ℚ) ^ 52 ≤ num / den / gridUnit (roundingBinade num den) :=
    (Nat.eq_zero_or_pos _).imp_right fun h => le_scaled hnum hden (by unfold roundingBinade at h; omega)
  have hgrid := isNearestEven_grid (roundedSignificand_rounds hden)
    (div_nonneg (by positivity) (gridUnit_pos _).le) (scaled_lt hnum hden) hlo (by unfold roundingBinade; omega)
  rwa [div_mul_cancel₀ _ (gridUnit_pos _).ne', ← rne64_eq hnum hden] at hgrid

/-- Settles O42: the point of the grid `rne64` rounds to is the nearest pattern, and below `2^1023` it is finite. -/
theorem rne64IsNearestEven : Obligations.Rne64IsNearestEven := by
  intro num den hden hlt
  rcases Nat.eq_zero_or_pos num with rfl | hnum
  · rw [rne64_zero, Nat.cast_zero, zero_div]
    exact isNearestEven_zero
  · have hexp := floorLog2_lt hnum hden hlt
    exact rne64_isNearestEven_of_pos hnum hden (by omega)

end Sys2Proof.Machine
end

section
/-!
SUPPORT. The result registers of a Short numeric as numbers (R107 to R112): how large the coefficient can be, and, from
that, that the shift and the exact integer fit their registers and the quotient stays below infinity.
-/

namespace Sys2Proof.Machine

open Sys2Proof.Safety

/-! ### How large the coefficient is (R107) -/

/-- With no digit above `d` the coefficient is at most that of the digits `d, d, ..., d`. -/
theorem coefficient_le_of_digits {s : State} {hp k d : Nat} (h : ∀ j, j < k → digitAt s hp j ≤ d) :
    9999 * coefficient s hp k ≤ d * (10000 ^ k - 1) := by
  calc 9999 * coefficient s hp k
      ≤ 9999 * ∑ i ∈ Finset.range k, d * 10000 ^ (k - 1 - i) :=
        Nat.mul_le_mul_left _ (Finset.sum_le_sum fun i hi =>
          Nat.mul_le_mul_right _ (h i (Finset.mem_range.mp hi)))
    _ = d * ((∑ i ∈ Finset.range k, 10000 ^ i) * (10000 - 1)) := by
        rw [← Finset.mul_sum, Finset.sum_range_reflect (fun i => 10000 ^ i)]
        ring
    _ = d * (10000 ^ k - 1) := by rw [geom_sum_mul_of_one_le (by norm_num)]

/-- The coefficient fits 16 bits a digit. -/
theorem coefficient_lt_two_pow (s : State) (hp k : Nat) : coefficient s hp k < 2 ^ (16 * k) := by
  rw [← accNat_coefficient]
  simpa using accNat_lt s.mem k (hp + 2) 0 0 Nat.one_pos

/-- With decimal digits the coefficient is a number of `k` of them. -/
theorem coefficient_lt_pow {s : State} {hp k : Nat} (h : ∀ j, j < k → digitAt s hp j < 10000) :
    coefficient s hp k < 10000 ^ k := by
  have hle := coefficient_le_of_digits (d := 9999) fun j hj => Nat.le_of_lt_succ (h j hj)
  have hpos : 0 < 10000 ^ k := Nat.pow_pos (by norm_num)
  omega

/-- `acc` is no larger than `k` digits of 16 bits can make it. -/
def FitsDigits (k acc : Nat) : Prop := 9999 * acc ≤ 65535 * (10000 ^ k - 1)

theorem coefficient_fits (s : State) (hp k : Nat) : FitsDigits k (coefficient s hp k) :=
  coefficient_le_of_digits fun _ _ => Nat.le_of_lt_succ (halfAt_lt s _)

/-- Appending `j` digits 0. -/
theorem FitsDigits.mul_pow {k acc : Nat} (h : FitsDigits k acc) (j : Nat) : FitsDigits (k + j) (acc * 10000 ^ j) := by
  unfold FitsDigits at h ⊢
  calc 9999 * (acc * 10000 ^ j) = 9999 * acc * 10000 ^ j := by ring
    _ ≤ 65535 * (10000 ^ k - 1) * 10000 ^ j := Nat.mul_le_mul_right _ h
    _ = 65535 * (10000 ^ (k + j) - 10000 ^ j) := by rw [mul_assoc, Nat.sub_mul, one_mul, ← pow_add]
    _ ≤ 65535 * (10000 ^ (k + j) - 1) :=
      Nat.mul_le_mul_left _ (Nat.sub_le_sub_left (Nat.one_le_pow _ _ (by norm_num)) _)

theorem FitsDigits.mono {k l acc : Nat} (h : FitsDigits k acc) (hkl : k ≤ l) : FitsDigits l acc :=
  h.trans (Nat.mul_le_mul_left _ (Nat.sub_le_sub_right (Nat.pow_le_pow_right (by norm_num) hkl) 1))

/-- What 64 digits make is below `2^854` (R111). -/
theorem FitsDigits.lt_two_pow {acc : Nat} (h : FitsDigits 64 acc) : acc < 2 ^ 854 := by
  have hpow : 65535 * (10000 ^ 64 - 1) < 9999 * 2 ^ 854 := by
    rw [show 854 = 122 * 7 from rfl, pow_mul]
    norm_num
  exact Nat.lt_of_mul_lt_mul_left (h.trans_lt hpow)

theorem FitsDigits.lt_pow {k acc : Nat} (h : FitsDigits k acc) : acc < 10000 ^ k * 2 ^ 3 := by
  have hpos : 0 < 10000 ^ k := Nat.pow_pos (by norm_num)
  unfold FitsDigits at h
  omega

/-- A quotient of weight at most 63 is below `2^1023` (R112). -/
theorem FitsDigits.lt_mul_two_pow {k l acc : Nat} (h : FitsDigits k acc) (hkl : k ≤ l + 64) :
    acc < 10000 ^ l * 2 ^ 1023 := by
  calc acc < 10000 ^ k * 2 ^ 3 := h.lt_pow
    _ ≤ 10000 ^ (l + 64) * 2 ^ 3 := Nat.mul_le_mul_right _ (Nat.pow_le_pow_right (by norm_num) hkl)
    _ ≤ 10000 ^ l * (2 ^ 14) ^ 64 * 2 ^ 3 := by
      rw [pow_add]
      gcongr
      norm_num
    _ ≤ 10000 ^ l * 2 ^ 1023 := by
      rw [← pow_mul, mul_assoc, ← pow_add]
      gcongr <;> norm_num

/-! ### Shift and weight (R57, R108) -/

theorem weight_bounds (w : BitVec 7) : -64 ≤ w.toInt ∧ w.toInt ≤ 63 :=
  ⟨w.le_toInt, Int.le_of_lt_add_one w.toInt_lt⟩

theorem neg_shortShift (k : Nat) (w : BitVec 7) : -shortShift k w = w.toInt + 1 - k := by
  unfold shortShift
  ring

/-- Kind INT by the weight (R109). -/
theorem shortShift_nonpos_iff {k : Nat} {w : BitVec 7} : shortShift k w ≤ 0 ↔ (k : Int) ≤ w.toInt + 1 := by
  unfold shortShift
  omega

/-- A two's complement register holds what fits its magnitude bits. -/
theorem toInt_ofInt_of_natAbs_lt {w : Nat} {i : Int} (h : i.natAbs < 2 ^ w) : (BitVec.ofInt (w + 1) i).toInt = i := by
  have hi : (i.natAbs : Int) < 2 ^ w := by exact_mod_cast h
  apply BitVec.toInt_ofInt_eq_self w.succ_pos <;> rw [Nat.succ_sub_one] <;> omega

/-! ### The two views (R110 to R112) -/

/-- The sign as a factor (R110). -/
theorem intView_eq (neg : BitVec 1) (acc : Nat) (shift : Int) :
    intView neg acc shift = (if neg = 1 then -1 else 1) * ((acc : Int) * 10000 ^ (-shift).toNat) := by
  unfold intView
  split_ifs <;> push_cast <;> ring

theorem intView_natAbs (neg : BitVec 1) (acc : Nat) (shift : Int) :
    (intView neg acc shift).natAbs = acc * 10000 ^ (-shift).toNat := by
  unfold intView
  split_ifs
  · rw [Int.natAbs_neg, Int.natAbs_natCast]
  · rw [Int.natAbs_natCast]

section
variable {k acc : Nat} {w : BitVec 7}

/-- A Short numeric of kind INT has no more than 64 digits. -/
theorem ndigits_le_of_shift_nonpos (hs : shortShift k w ≤ 0) : k ≤ 64 := by
  have := weight_bounds w
  unfold shortShift at hs
  omega

/-- The magnitude of kind INT is one of 64 digits (R111). -/
theorem magnitude_fits (hfit : FitsDigits k acc) (hs : shortShift k w ≤ 0) :
    FitsDigits 64 (acc * 10000 ^ (-shortShift k w).toNat) := by
  have := weight_bounds w
  refine (hfit.mul_pow _).mono ?_
  unfold shortShift at hs ⊢
  omega

/-- The integer view fits its register (R111). -/
theorem intView_toInt (neg : BitVec 1) (hfit : FitsDigits k acc) (hs : shortShift k w ≤ 0) :
    (BitVec.ofInt 855 (intView neg acc (shortShift k w))).toInt = intView neg acc (shortShift k w) :=
  toInt_ofInt_of_natAbs_lt (w := 854) ((intView_natAbs _ _ _).trans_lt (magnitude_fits hfit hs).lt_two_pow)

/-- The quotient of kind FLOAT is rounded to the nearest finite pattern (R112). -/
theorem rne64_quotient_isNearestEven (hfit : FitsDigits k acc) (hs : 0 < shortShift k w) :
    IsNearestEven (rne64 acc (10000 ^ (shortShift k w).toNat)) ((acc : ℚ) * (10000 : ℚ) ^ (-shortShift k w)) := by
  have := weight_bounds w
  have hk : k ≤ (shortShift k w).toNat + 64 := by
    unfold shortShift
    omega
  have hnear := rne64IsNearestEven acc _ (Nat.pow_pos (by norm_num)) (hfit.lt_mul_two_pow hk)
  rwa [Nat.cast_pow, ← zpow_natCast, Int.toNat_of_nonneg hs.le, div_eq_mul_inv, ← zpow_neg] at hnear

end

/-- A finite pattern under the sign bit (R110). -/
theorem floatView_toNat {neg : BitVec 1} {acc : Nat} {shift : Int}
    (h : rne64 acc (10000 ^ shift.toNat) < binary64Infinity) :
    (floatView neg acc shift).toNat = neg.toNat * 2 ^ 63 + rne64 acc (10000 ^ shift.toNat) := by
  rw [floatView, append_toNat, BitVec.toNat_ofNat, Nat.mod_eq_of_lt]
  unfold binary64Infinity at h
  omega

/-! ### The result registers of a Short numeric (R108 to R112) -/

theorem shortResults_nNdigits (h : Half) {k : Nat} (acc : Nat) (hk : k < 2 ^ 31) :
    (shortResults h k acc).nNdigits.toNat = k :=
  Nat.mod_eq_of_lt (by omega)

theorem shortResults_nShift (h : Half) {k : Nat} (acc : Nat) (hk : k < 2 ^ 31) :
    (shortResults h k acc).nShift.toInt = shortShift k (headerWeight h) := by
  have := weight_bounds (headerWeight h)
  exact toInt_ofInt_of_natAbs_lt (w := 32) (by unfold shortShift; omega)

/-- `dscale` plays no part in the value (R114). -/
theorem shortResults_value_congr {h h' : Half} (hsign : headerSign h = headerSign h')
    (hweight : headerWeight h = headerWeight h') (k acc : Nat) :
    (shortResults h k acc).nKind = (shortResults h' k acc).nKind ∧
      (shortResults h k acc).nCoef = (shortResults h' k acc).nCoef ∧
      (shortResults h k acc).nShift = (shortResults h' k acc).nShift ∧
      (shortResults h k acc).nIval = (shortResults h' k acc).nIval ∧
      (shortResults h k acc).nFval = (shortResults h' k acc).nFval := by
  simp only [shortResults, hsign, hweight, and_self]

section
variable {h : Half} {k acc : Nat}

/-- The views of kind INT. -/
theorem shortResults_of_nonpos (hs : shortShift k (headerWeight h) ≤ 0) :
    (shortResults h k acc).nKind = .int ∧ (shortResults h k acc).nFval = 0 ∧
      (shortResults h k acc).nIval = BitVec.ofInt 855 (intView (headerSign h) acc (shortShift k (headerWeight h))) :=
  ⟨if_pos hs, if_pos hs, if_pos hs⟩

/-- The views of kind FLOAT. -/
theorem shortResults_of_pos (hs : 0 < shortShift k (headerWeight h)) :
    (shortResults h k acc).nKind = .float ∧ (shortResults h k acc).nIval = 0 ∧
      (shortResults h k acc).nFval = floatView (headerSign h) acc (shortShift k (headerWeight h)) :=
  ⟨if_neg hs.not_ge, if_neg hs.not_ge, if_neg hs.not_ge⟩

/-- For kind INT the register holds the exact integer (R111). -/
theorem shortResults_nIval (hfit : FitsDigits k acc) (hs : shortShift k (headerWeight h) ≤ 0) :
    (shortResults h k acc).nIval.toInt = intView (headerSign h) acc (shortShift k (headerWeight h)) := by
  obtain ⟨-, -, hival⟩ := shortResults_of_nonpos (acc := acc) hs
  rw [hival, intView_toInt _ hfit hs]

/-- For kind FLOAT the register holds the rounded quotient under the sign (R112). -/
theorem shortResults_nFval (hfit : FitsDigits k acc) (hs : 0 < shortShift k (headerWeight h)) :
    (shortResults h k acc).nFval.toNat =
      (headerSign h).toNat * 2 ^ 63 + rne64 acc (10000 ^ (shortShift k (headerWeight h)).toNat) := by
  obtain ⟨-, -, hfval⟩ := shortResults_of_pos (acc := acc) hs
  obtain ⟨hfinite, -⟩ := rne64_quotient_isNearestEven hfit hs
  rw [hfval, floatView_toNat hfinite]

/-- The whole of kind INT, by the weight (R109 to R111). -/
theorem shortResults_integer (hfit : FitsDigits k acc) (hk : (k : Int) ≤ (headerWeight h).toInt + 1) :
    (shortResults h k acc).nKind = .int ∧ (shortResults h k acc).nFval = 0 ∧
      (shortResults h k acc).nIval.toInt = (if headerSign h = 1 then -1 else 1) *
        ((acc : Int) * 10000 ^ ((headerWeight h).toInt + 1 - k).toNat) := by
  have hs := shortShift_nonpos_iff.mpr hk
  obtain ⟨hkind, hfval, -⟩ := shortResults_of_nonpos (acc := acc) hs
  refine ⟨hkind, hfval, ?_⟩
  rw [shortResults_nIval hfit hs, intView_eq, neg_shortShift]

/-- The whole of kind FLOAT, by the weight (R109, R110, R112). -/
theorem shortResults_quotient (hfit : FitsDigits k acc) (hk : (headerWeight h).toInt + 1 < k) :
    (shortResults h k acc).nKind = .float ∧ (shortResults h k acc).nIval = 0 ∧
      ∃ p, (shortResults h k acc).nFval.toNat = (headerSign h).toNat * 2 ^ 63 + p ∧
        IsNearestEven p ((acc : ℚ) * (10000 : ℚ) ^ ((headerWeight h).toInt + 1 - k)) ∧ (acc = 0 → p = 0) := by
  have hs : 0 < shortShift k (headerWeight h) := by
    rw [← not_le, shortShift_nonpos_iff]
    omega
  obtain ⟨hkind, hival, -⟩ := shortResults_of_pos (acc := acc) hs
  refine ⟨hkind, hival, _, shortResults_nFval hfit hs, ?_, fun hzero => ?_⟩
  · rw [← neg_shortShift]
    exact rne64_quotient_isNearestEven hfit hs
  · rw [hzero, rne64_zero]

end

end Sys2Proof.Machine
end

section
/-!
SUPPORT. How `NUMDEC` and `NUMFDEC` reach their header word (R100 to R103, R121), and what they do with one that is not
Short (R104, R115 to R120). Both commands end with the branch of the header word (`exec_of_decodesHeader`), `NUMFDEC`
with the length word over it (`Results.setLenword`).
-/

namespace Sys2Proof.Machine

open Sys2Proof.Safety

/-! ### The pre-check and the header fetch (R102, R103) -/

theorem numCore_tooShort {s : State} {hp n : Nat} (hn : n < 2) : numCore s hp n = .error .numRange := by
  rw [numCore, fetchHeader, if_pos hn]

section
variable {s : State} {hp n : Nat} (hn : 2 ≤ n)
include hn

theorem fetchHeader_fits (hfit : hp + 2 ≤ s.buflen.toNat) :
    fetchHeader s hp n = .ok (BitVec.ofNat 16 (halfAt s hp)) := by
  rw [fetchHeader, if_neg (by omega), readU16LE_ok hfit]

theorem numCore_past (hpast : hp + 2 > s.buflen.toNat) : numCore s hp n = .error .outOfBounds := by
  rw [numCore, fetchHeader, if_neg (by omega), readU16LE_eq, if_pos hpast]

theorem numCore_fits (hfit : hp + 2 ≤ s.buflen.toNat) :
    numCore s hp n = headerBranch s hp n (BitVec.ofNat 16 (halfAt s hp)) := by
  rw [numCore, fetchHeader_fits hn hfit]

end

/-! ### The numeric field (R121) -/

/-- `N_LENWORD` written over the result registers of the packed numeric (R121). -/
def Results.setLenword (lw : Word) (r : Results) : Results := { r with nLenword := lw }

theorem numfdecOutcome_tooShort {s : State} (h : s.len.toNat < fieldPad s.pos.toNat + 6) :
    numfdecOutcome s = .error .numRange := if_pos h

section
variable {s : State} (hlen : fieldPad s.pos.toNat + 6 ≤ s.len.toNat)
include hlen

theorem numfdecOutcome_past (hpast : s.pos.toNat + fieldPad s.pos.toNat + 4 > s.buflen.toNat) :
    numfdecOutcome s = .error .outOfBounds := by
  simp only [numfdecOutcome]
  rw [if_neg (by omega), readU32LE_eq, if_pos hpast]

/-- Past its length word `NUMFDEC` is `Core` on the packed numeric (R121). -/
theorem numfdecOutcome_fits (hfit : s.pos.toNat + fieldPad s.pos.toNat + 4 ≤ s.buflen.toNat) :
    numfdecOutcome s =
      (numCore s (s.pos.toNat + fieldPad s.pos.toNat + 4) (s.len.toNat - fieldPad s.pos.toNat - 4)).map
        (Results.setLenword (BitVec.ofNat 32 (wordAt s (s.pos.toNat + fieldPad s.pos.toNat)))) := by
  simp only [numfdecOutcome]
  rw [if_neg (by omega), readU32LE_ok hfit]
  cases numCore s (s.pos.toNat + fieldPad s.pos.toNat + 4) (s.len.toNat - fieldPad s.pos.toNat - 4) <;> rfl

end

/-- `Core` leaves `N_LENWORD` 0 (R15). -/
theorem numCore_setLenword_zero (s : State) (hp n : Nat) :
    (numCore s hp n).map (Results.setLenword 0) = numCore s hp n := by
  rcases hcore : numCore s hp n with e | r
  · rfl
  · obtain ⟨-, -, hlenword⟩ := numCore_resultsFit hcore
    exact congrArg (fun lw => Except.ok { r with nLenword := lw }) (hlenword rfl).symm

/-! ### The commands on their header word (R101) -/

theorem exec_numdec (s : State) :
    exec .numdec s = .next (issueCommand 6 (numCore s s.pos.toNat s.len.toNat) s) := rfl

theorem exec_numfdec (s : State) : exec .numfdec s = .next (issueCommand 7 (numfdecOutcome s) s) := rfl

section
variable {s : State} {i : Instr} {op : OpCode} {hp n lw h : Nat} (hdec : DecodesHeader s i op hp n lw h)
include hdec

theorem header_lt_of_decodesHeader : h < 2 ^ 16 := by
  obtain ⟨-, -, rfl, -⟩ := hdec
  exact halfAt_lt s hp

/-- The range of either command lies in `LEN` bytes. -/
theorem range_lt_of_decodesHeader : n < 2 ^ 32 := by
  obtain ⟨-, -, -, ⟨-, -, -, rfl, -⟩ | ⟨-, -, -, hlen, -⟩⟩ := hdec
  · exact s.len.isLt
  · have := s.len.isLt
    omega

/-- `N_LENWORD` holds the whole length word (R121). -/
theorem lenword_lt_of_decodesHeader : lw < 2 ^ 32 := by
  obtain ⟨-, -, -, ⟨-, -, -, -, rfl⟩ | ⟨-, -, -, -, rfl⟩⟩ := hdec
  · norm_num
  · exact wordAt_lt s _

/-- Both commands end with the branch of their header word, under the length word read before it (R100, R101, R121). -/
theorem exec_of_decodesHeader : exec i s = .next (issueCommand op
    ((headerBranch s hp n (BitVec.ofNat 16 h)).map (Results.setLenword (BitVec.ofNat 32 lw))) s) := by
  obtain ⟨hn, hfit, rfl, hcmd⟩ := hdec
  rw [← numCore_fits hn hfit]
  rcases hcmd with ⟨rfl, rfl, rfl, rfl, rfl⟩ | ⟨rfl, rfl, rfl, hlen, rfl⟩
  · rw [exec_numdec]
    exact congrArg (fun out => Host.Outcome.next (issueCommand 6 out s)) (numCore_setLenword_zero s _ _).symm
  · have hrange : s.len.toNat - fieldPad s.pos.toNat - 4 = n := by
      unfold fieldPad
      omega
    rw [exec_numfdec, numfdecOutcome_fits (by unfold fieldPad; omega) (by unfold fieldPad; omega), hrange]
    rfl

theorem exec_of_headerBranch_error {e : Raise} (hb : headerBranch s hp n (BitVec.ofNat 16 h) = .error e) :
    exec i s = .next (failed op (raiseErr e) (raiseSub e) s) := by
  rw [exec_of_decodesHeader hdec, hb]
  rfl

theorem exec_of_headerBranch_ok {r : Results} (hb : headerBranch s hp n (BitVec.ofNat 16 h) = .ok r) :
    exec i s = .next (succeeded op (r.setLenword (BitVec.ofNat 32 lw)) s) := by
  rw [exec_of_decodesHeader hdec, hb]
  rfl

end

/-! ### Ranges that hold no header (R102, R103) -/

/-- Settles O28: the pre-check comes before any read. -/
theorem numdecRangeTooShort : Obligations.NumdecRangeTooShort := by
  intro s hlen
  rw [exec_numdec, numCore_tooShort hlen]
  rfl

theorem exec_numfdec_headerPast {s : State} (hlen : fieldPad s.pos.toNat + 6 ≤ s.len.toNat)
    (hpast : s.pos.toNat + fieldPad s.pos.toNat + 6 > s.buflen.toNat) :
    exec .numfdec s = .next (failed 7 .outOfBounds .none s) := by
  rw [exec_numfdec]
  by_cases hword : s.pos.toNat + fieldPad s.pos.toNat + 4 > s.buflen.toNat
  · rw [numfdecOutcome_past hlen hword]
    rfl
  · rw [numfdecOutcome_fits hlen (by omega), numCore_past (by omega) (by omega)]
    rfl

/-- The header fields by the bytes they stand in (R56, R103). -/
theorem headerFields_toNat {b0 b1 : Nat} (h0 : b0 < 2 ^ 8) (h1 : b1 < 2 ^ 8) :
    (headerVariant (BitVec.ofNat 16 (b0 + 256 * b1))).toNat = b1 / 2 ^ 6 ∧
    (headerSign (BitVec.ofNat 16 (b0 + 256 * b1))).toNat = b1 / 2 ^ 5 % 2 ∧
    (headerDscale (BitVec.ofNat 16 (b0 + 256 * b1))).toNat = 2 * (b1 % 2 ^ 5) + b0 / 2 ^ 7 ∧
    (headerWeight (BitVec.ofNat 16 (b0 + 256 * b1))).toNat = b0 % 2 ^ 7 := by
  simp only [headerVariant, headerSign, headerDscale, headerWeight, extract_toNat, BitVec.toNat_ofNat]
  omega

/-- Settles O29: the fetch fails at its own bounds, for `NUMFDEC` possibly at the length word already; the fields are
those of the two bytes. -/
theorem headerFetchAndFieldBytes : Obligations.HeaderFetchAndFieldBytes := by
  refine ⟨fun s hlen hpast => ?_, fun s pad hpad hlen hpast => ?_, fun s a hfit => ?_⟩
  · rw [exec_numdec, numCore_past hlen hpast]
    rfl
  · subst hpad
    exact exec_numfdec_headerPast hlen hpast
  · exact ⟨_, readU16LE_ok hfit, headerFields_toNat (byteAt_lt s a) (byteAt_lt s (a + 1))⟩

/-! ### Long and Special headers (R115 to R120) -/

/-- Settles O31: the Long branch looks at nothing. -/
theorem longHeadersUnsupported : Obligations.LongHeadersUnsupported := by
  intro s i op hp n lw h hdec hv
  exact exec_of_headerBranch_error hdec (headerBranch_long (header_lt_of_decodesHeader hdec) hv)

theorem ofNat16_eq_iff {h : Nat} (hh : h < 2 ^ 16) (w : Half) : BitVec.ofNat 16 h = w ↔ h = w.toNat := by
  rw [← BitVec.toNat_inj, ofNat16_toNat hh]

/-- The words of the table as numbers (R59). -/
theorem ofNat_mem_specialWords_iff {h : Nat} (hh : h < 2 ^ 16) :
    BitVec.ofNat 16 h ∈ specialWords ↔ h = 0xC000 ∨ h = 0xD000 ∨ h = 0xF000 := by
  rw [mem_specialWords_iff, ofNat16_eq_iff hh, ofNat16_eq_iff hh, ofNat16_eq_iff hh]
  rfl

/-- Settles O32: each word of the table has its own record, and no byte past it is read. -/
theorem specialHeadersGiveValues : Obligations.SpecialHeadersGiveValues := by
  intro s i op hp n lw h hdec
  refine ⟨?_, ?_, ?_⟩ <;>
  · rintro rfl
    exact exec_of_headerBranch_ok hdec (headerBranch_special (by norm_num) (by norm_num))

/-- Settles O33: outside the table the Special branch raises. -/
theorem otherSpecialHeadersMalformed : Obligations.OtherSpecialHeadersMalformed := by
  intro s i op hp n lw h hdec hv hnan hpinf hninf
  have hbad : BitVec.ofNat 16 h ∉ specialWords := by
    rw [ofNat_mem_specialWords_iff (header_lt_of_decodesHeader hdec)]
    simp [hnan, hpinf, hninf]
  exact exec_of_headerBranch_error hdec
    ((headerBranch_special (header_lt_of_decodesHeader hdec) hv).trans (specialBranch_of_not_mem hbad))

/-! ### Every branch (R101, R104) -/

/-- The three ends of the Short branch once the header is fetched (R106, R107). -/
theorem shortBranch_cases {s : State} {hp n : Nat} (h : Half) (hn : 2 ≤ n) (hfit : hp + 2 ≤ s.buflen.toNat) :
    ((n - 2) % 2 = 1 ∧ shortBranch s hp n h = .error .numRange) ∨
    ∃ k, n = 2 + 2 * k ∧
      ((hp + n > s.buflen.toNat ∧ shortBranch s hp n h = .error .outOfBounds) ∨
       (hp + n ≤ s.buflen.toNat ∧ shortBranch s hp n h = .ok (shortResults h k (coefficient s hp k)))) := by
  rcases Nat.mod_two_eq_zero_or_one (n - 2) with heven | hodd
  · have hk : n = 2 + 2 * ((n - 2) / 2) := by omega
    refine .inr ⟨_, hk, ?_⟩
    rcases Nat.lt_or_ge s.buflen.toNat (hp + n) with hpast | hin
    · exact .inl ⟨hpast, shortBranch_outOfBounds h hfit hk hpast⟩
    · exact .inr ⟨hin, shortBranch_ok h hk hin⟩
  · exact .inl ⟨hodd, shortBranch_odd h hodd⟩

theorem shortKind_eq (shift : Int) : shortKind shift = .int ∨ shortKind shift = .float := by
  unfold shortKind
  split_ifs
  · exact .inl rfl
  · exact .inr rfl

/-- The ends of the Special branch (R115 to R118). -/
theorem specialBranch_cases (h : Half) :
    specialBranch h = .error .numSpecial ∨
      ∃ k f, specialBranch h = .ok (specialResults k h f) ∧ (k = .nan ∨ k = .pinf ∨ k = .ninf) := by
  by_cases hh : h ∈ specialWords
  · rcases mem_specialWords_iff.mp hh with rfl | rfl | rfl
    · exact .inr ⟨.nan, _, rfl, by simp⟩
    · exact .inr ⟨.pinf, _, rfl, by simp⟩
    · exact .inr ⟨.ninf, _, rfl, by simp⟩
  · exact .inl (specialBranch_of_not_mem hh)

/-- Settles O30: the variant chooses the branch, and each branch has the ends listed for it. -/
theorem numericBranchByVariant : Obligations.NumericBranchByVariant := by
  intro s i op hp n lw h hdec
  have ⟨hn, hfit, _⟩ := hdec
  refine ⟨_, exec_of_decodesHeader hdec, fun hv => ?_, fun hv => ?_, fun hv => ?_⟩
  · rw [headerBranch_long (header_lt_of_decodesHeader hdec) hv]
    rfl
  · rw [headerBranch_short (header_lt_of_decodesHeader hdec) hv]
    rcases shortBranch_cases (BitVec.ofNat 16 h) hn hfit with ⟨-, hb⟩ | ⟨k, -, ⟨-, hb⟩ | ⟨-, hb⟩⟩ <;> rw [hb]
    · exact .inl rfl
    · exact .inr (.inl rfl)
    · exact .inr (.inr ⟨rfl, shortKind_eq _⟩)
  · rw [headerBranch_special (header_lt_of_decodesHeader hdec) hv]
    rcases specialBranch_cases (BitVec.ofNat 16 h) with hb | ⟨k, f, hb, hk⟩ <;> rw [hb]
    · exact .inl rfl
    · exact .inr ⟨rfl, hk⟩

/-! ### The header rows (log entry 6) -/

/-- A header row whose range holds a header in the buffer ends with its branch. -/
theorem runNumRow_fits {s : State} (hlen : 2 ≤ s.len.toNat) (hfit : s.pos.toNat + 2 ≤ s.buflen.toNat)
    (branch : Except Raise Results) : runNumRow branch s = .next (issueCommand 6 branch s) := by
  rw [runNumRow, numRowOutcome, fetchHeader_fits hlen hfit]
  rfl

/-- Settles O44: six rows of one fixed branch each. -/
theorem fixedHeaderRowsComplete : Obligations.FixedHeaderRowsComplete := by
  intro s x hlen hfit
  have hrow := runNumRow_fits hlen hfit
  exact ⟨hrow _, hrow _, hrow _, hrow _, hrow _, hrow _⟩

/-! ### The two commands against each other (R100, R121) -/

/-- `NUMDEC` with other operands over the same buffer. -/
theorem numCore_withOperands (s : State) (p l : Word) (hp n : Nat) :
    numCore { s with pos := p, len := l } hp n = numCore s hp n :=
  numCore_congr rfl fun _ _ _ => rfl

theorem exec_numdec_at (s : State) {a n : Nat} (ha : a < 2 ^ 32) (hn : n < 2 ^ 32) :
    exec .numdec { s with pos := BitVec.ofNat 32 a, len := BitVec.ofNat 32 n } =
      .next (issueCommand 6 (numCore s a n) { s with pos := BitVec.ofNat 32 a, len := BitVec.ofNat 32 n }) := by
  rw [exec_numdec, numCore_withOperands, BitVec.toNat_ofNat, BitVec.toNat_ofNat, Nat.mod_eq_of_lt ha,
    Nat.mod_eq_of_lt hn]

/-- Settles O46: past the length word both commands end with `Core` on the packed numeric. -/
theorem numfdecIsNumdecOnItsField : Obligations.NumfdecIsNumdecOnItsField := by
  rintro s pad rfl
  have hb := s.buflen.isLt
  have hl := s.len.isLt
  refine ⟨fun hlen => ?_, fun hlen hpast => ?_, fun hlen hfit => ?_⟩
  · rw [exec_numfdec, numfdecOutcome_tooShort hlen]
    rfl
  · rw [exec_numfdec, numfdecOutcome_past hlen hpast]
    rfl
  · refine ⟨_, exec_numdec_at s (by omega) (by omega), ?_⟩
    rw [exec_numfdec, numfdecOutcome_fits hlen hfit, fieldPad]
    rcases numCore s _ _ with e | r
    · exact ⟨fun hok => absurd hok (raiseErr_ne_none e), fun _ => rfl⟩
    · exact ⟨fun _ => rfl, fun herr => absurd rfl herr⟩

/-- Settles O48: `Core` over the range reads the range alone. -/
theorem numdecReadsOnlyItsRange : Obligations.NumdecReadsOnlyItsRange := by
  intro s s' hpos hlen hbuflen hbytes
  refine ⟨_, _, exec_numdec s, exec_numdec s', ?_⟩
  rw [← hpos, ← hlen, numCore_congr hbuflen hbytes]
  exact ⟨issueCommand_results_eq .., issueCommand_status_eq ..⟩

/-! ### Completion (R124, R140) -/

/-- The seven commands' codes are theirs alone (R64). -/
theorem opCode_of_command {op : OpCode} (h1 : 1 ≤ op.toNat) (h7 : op.toNat ≤ 7) :
    op ∈ [Config.opEofflen, Config.opEhasoff, Config.opEtype, Config.opEdec, Config.opEload, Config.opNumdec,
      Config.opNumfdec] := by
  revert op
  decide

theorem exec_command_completes (s : State) {op : OpCode} (h1 : 1 ≤ op.toNat) (h7 : op.toNat ≤ 7) :
    ∃ out, exec (decodeCommand op) s = .next (issueCommand op out s) := by
  have hop := opCode_of_command h1 h7
  simp only [List.mem_cons, List.not_mem_nil, or_false] at hop
  rcases hop with rfl | rfl | rfl | rfl | rfl | rfl | rfl <;> exact ⟨_, rfl⟩

/-- Settles O51: every command ends in `issueCommand` under its own code. -/
theorem everyCommandCompletes : Obligations.EveryCommandCompletes := by
  intro s op h1 h7
  obtain ⟨out, hexec⟩ := exec_command_completes s h1 h7
  exact ⟨_, hexec, issueCommand_done .., issueCommand_lastop ..⟩

end Sys2Proof.Machine
end

section
/-!
SUPPORT. Short numerics (R105 to R114): both commands end with `shortRegisters` of the header word and the coefficient
(`exec_short_fits`), or with one of the two errors; the statements read its registers.
-/

namespace Sys2Proof.Machine

open Sys2Proof.Safety

/-! ### Header fields as numbers (R56, R57) -/

theorem headerSign_ofNat (h : Nat) : (headerSign (BitVec.ofNat 16 h)).toNat = h / 2 ^ 13 % 2 := by
  simp only [headerSign, extract_toNat, BitVec.toNat_ofNat]
  omega

theorem headerDscale_ofNat (h : Nat) : (headerDscale (BitVec.ofNat 16 h)).toNat = h / 2 ^ 7 % 2 ^ 6 := by
  simp only [headerDscale, extract_toNat, BitVec.toNat_ofNat]
  omega

theorem headerWeight_ofNat (h : Nat) : (headerWeight (BitVec.ofNat 16 h)).toNat = h % 2 ^ 7 := by
  simp only [headerWeight, extract_toNat, BitVec.toNat_ofNat]
  omega

theorem headerWeight_ofNat_toInt (h : Nat) : (headerWeight (BitVec.ofNat 16 h)).toInt = weightOf h := by
  rw [BitVec.toInt_eq_toNat_cond, headerWeight_ofNat]
  unfold weightOf
  split_ifs <;> omega

theorem headerSign_ofNat_eq_one_iff (h : Nat) : headerSign (BitVec.ofNat 16 h) = 1 ↔ h / 2 ^ 13 % 2 = 1 := by
  rw [← BitVec.toNat_inj, headerSign_ofNat]
  rfl

theorem shortShift_ofNat (k h : Nat) : shortShift k (headerWeight (BitVec.ofNat 16 h)) = k - weightOf h - 1 := by
  rw [shortShift, headerWeight_ofNat_toInt]

theorem neg_shortShift_ofNat (k h : Nat) :
    -shortShift k (headerWeight (BitVec.ofNat 16 h)) = weightOf h + 1 - k := by
  rw [neg_shortShift, headerWeight_ofNat_toInt]

/-! ### The ends of a Short header (R106, R107) -/

/-- The result registers of a Short numeric whose header word and length word are given as numbers. -/
def shortRegisters (h k acc lw : Nat) : Results :=
  (shortResults (BitVec.ofNat 16 h) k acc).setLenword (BitVec.ofNat 32 lw)

theorem shortRegisters_nNdigits {h k acc lw : Nat} (hk : k < 2 ^ 31) :
    (shortRegisters h k acc lw).nNdigits.toNat = k :=
  shortResults_nNdigits (BitVec.ofNat 16 h) acc hk

theorem shortRegisters_nShift {h k acc lw : Nat} (hk : k < 2 ^ 31) :
    (shortRegisters h k acc lw).nShift.toInt = k - weightOf h - 1 :=
  (shortResults_nShift (BitVec.ofNat 16 h) acc hk).trans (shortShift_ofNat k h)

section
variable {s : State} {i : Instr} {op : OpCode} {hp n lw h k : Nat} (hdec : DecodesHeader s i op hp n lw h)
include hdec

theorem ndigits_lt_of_decodesHeader (hn : n = 2 + 2 * k) : k < 2 ^ 31 := by
  have := range_lt_of_decodesHeader hdec
  omega

variable (hv : h / 2 ^ 14 = 2)
include hv

theorem headerBranch_of_short : headerBranch s hp n (BitVec.ofNat 16 h) = shortBranch s hp n (BitVec.ofNat 16 h) :=
  headerBranch_short (header_lt_of_decodesHeader hdec) hv

theorem exec_short_odd (hodd : (n - 2) % 2 = 1) : exec i s = .next (failed op .malformedHeader .numRange s) :=
  exec_of_headerBranch_error hdec ((headerBranch_of_short hdec hv).trans (shortBranch_odd _ hodd))

variable (hn : n = 2 + 2 * k)
include hn

theorem exec_short_past (hpast : hp + n > s.buflen.toNat) : exec i s = .next (failed op .outOfBounds .none s) := by
  have ⟨_, hfit, _⟩ := hdec
  exact exec_of_headerBranch_error hdec
    ((headerBranch_of_short hdec hv).trans (shortBranch_outOfBounds _ hfit hn hpast))

theorem exec_short_fits (hin : hp + n ≤ s.buflen.toNat) :
    exec i s = .next (succeeded op (shortRegisters h k (coefficient s hp k) lw) s) :=
  exec_of_headerBranch_ok hdec ((headerBranch_of_short hdec hv).trans (shortBranch_ok _ hn hin))

end

/-- Settles O34: the parity test comes before the digits, and the count is a number of 31 bits. -/
theorem shortDigitCount : Obligations.ShortDigitCount := by
  intro s i op hp n lw h hdec hv
  refine ⟨exec_short_odd hdec hv, fun heven hin => ?_⟩
  have ⟨h2, _⟩ := hdec
  have hn : n = 2 + 2 * ((n - 2) / 2) := by omega
  exact ⟨_, exec_short_fits hdec hv hn hin, shortRegisters_nNdigits (ndigits_lt_of_decodesHeader hdec hn)⟩

/-- Settles O35: the accumulation answers the digit sum exactly when the last digit fits. -/
theorem shortAccumulatesDigits : Obligations.ShortAccumulatesDigits := by
  intro s i op hp n lw h k hdec hv hn
  exact ⟨fun hpast => exec_short_past hdec hv hn (by omega),
    fun hin => ⟨_, exec_short_fits hdec hv hn (by omega), rfl⟩⟩

/-! ### The registers (R105, R108) -/

/-- Settles O36: each register of `shortRegisters` as a number. -/
theorem shortResultRegisters : Obligations.ShortResultRegisters := by
  intro s i op hp n lw h k hdec hv hn hin
  have hk := ndigits_lt_of_decodesHeader hdec hn
  exact ⟨_, exec_short_fits hdec hv hn hin, ⟨rfl, rfl, rfl, rfl, rfl⟩,
    ofNat16_toNat (header_lt_of_decodesHeader hdec), headerSign_ofNat h, headerDscale_ofNat h, headerWeight_ofNat h,
    headerWeight_ofNat_toInt h, shortRegisters_nNdigits hk, rfl, shortRegisters_nShift hk,
    Nat.mod_eq_of_lt (lenword_lt_of_decodesHeader hdec), coefficient_lt_two_pow s hp k, coefficient_lt_pow⟩

/-- The triple is the weighted digit sum, in the form the spec derives in R108. -/
theorem coefficient_mul_zpow (s : State) (hp k : Nat) (w : Int) :
    (coefficient s hp k : ℚ) * (10000 : ℚ) ^ (w + 1 - k) =
      ∑ j ∈ Finset.range k, (digitAt s hp j : ℚ) * (10000 : ℚ) ^ (w - j) := by
  rw [coefficient, Nat.cast_sum, Finset.sum_mul]
  refine Finset.sum_congr rfl fun j hj => ?_
  have hj' := Finset.mem_range.mp hj
  have hexp : ((k - 1 - j : ℕ) : ℤ) + (w + 1 - k) = w - j := by omega
  rw [Nat.cast_mul, Nat.cast_pow, Nat.cast_ofNat, mul_assoc, ← zpow_natCast, ← zpow_add₀ (by norm_num), hexp]

/-- Settles O37: the bounds are those of the weight, the sum is regrouped digit by digit. -/
theorem tripleIsWeightedDigitSum : Obligations.TripleIsWeightedDigitSum := by
  intro s i op hp n lw h k hdec hv hn hin
  have hshift := shortRegisters_nShift (h := h) (acc := coefficient s hp k) (lw := lw)
    (ndigits_lt_of_decodesHeader hdec hn)
  have hweight := weight_bounds (headerWeight (BitVec.ofNat 16 h))
  rw [headerWeight_ofNat_toInt] at hweight
  refine ⟨_, exec_short_fits hdec hv hn hin, hshift, ?_, ?_, rfl, headerSign_ofNat h, ?_⟩
  · omega
  · omega
  · rw [hshift, ← coefficient_mul_zpow]
    congr 2
    ring

/-! ### Kind, sign and the two views (R109 to R112) -/

theorem intView_zero (neg : BitVec 1) (shift : Int) : intView neg 0 shift = 0 := by
  simp [intView_eq]

/-- A coefficient of 0 has integer view 0, whatever the kind (R110). -/
theorem shortResults_nIval_zero (h : Half) (k : Nat) : (shortResults h k 0).nIval = 0 := by
  rcases le_or_gt (shortShift k (headerWeight h)) 0 with hs | hs
  · obtain ⟨-, -, hival⟩ := shortResults_of_nonpos (acc := 0) hs
    rw [hival, intView_zero]
    exact BitVec.ofInt_natCast 855 0
  · obtain ⟨-, hival, -⟩ := shortResults_of_pos (acc := 0) hs
    exact hival

/-- Negative zero (R110). -/
theorem floatView_one_zero (shift : Int) : floatView 1 0 shift = 0x8000000000000000 := by
  rw [floatView, rne64_zero]
  rfl

/-- A negative coefficient of 0 of kind FLOAT is negative zero (R110). -/
theorem shortResults_nFval_negZero {h : Half} {k : Nat} (hneg : headerSign h = 1)
    (hkind : (shortResults h k 0).nKind = .float) : (shortResults h k 0).nFval = 0x8000000000000000 := by
  rcases le_or_gt (shortShift k (headerWeight h)) 0 with hs | hs
  · obtain ⟨hint, -, -⟩ := shortResults_of_nonpos (acc := 0) hs
    exact nomatch hint.symm.trans hkind
  · obtain ⟨-, -, hfval⟩ := shortResults_of_pos (acc := 0) hs
    rw [hfval, hneg, floatView_one_zero]

/-- Settles O38: the kind tests the shift alone; a coefficient of 0 has both zeros as views. -/
theorem kindAndSign : Obligations.KindAndSign := by
  intro s i op hp n lw h k hdec hv hn hin
  refine ⟨_, exec_short_fits hdec hv hn hin, headerSign_ofNat h, ?_, fun hzero => ?_, fun hzero hneg hkind => ?_⟩
  · rw [← shortShift_ofNat]
    rfl
  · rw [hzero]
    exact shortResults_nIval_zero _ k
  · rw [hzero] at hkind ⊢
    exact shortResults_nFval_negZero hneg hkind

section
variable {s : State} {hp k h : Nat}

/-- The magnitude of kind INT is one of 64 digits (R111). -/
theorem magnitude_ofNat_fits (hk : (k : Int) ≤ weightOf h + 1) :
    FitsDigits 64 (coefficient s hp k * 10000 ^ (weightOf h + 1 - k).toNat) := by
  rw [← headerWeight_ofNat_toInt] at hk ⊢
  rw [← neg_shortShift]
  exact magnitude_fits (coefficient_fits s hp k) (shortShift_nonpos_iff.mpr hk)

/-- With decimal digits it is one of 256 decimal digits. -/
theorem magnitude_ofNat_lt (hk : (k : Int) ≤ weightOf h + 1) (hdigits : ∀ j, j < k → digitAt s hp j < 10000) :
    coefficient s hp k * 10000 ^ (weightOf h + 1 - k).toNat < 10 ^ 256 := by
  have hw := weight_bounds (headerWeight (BitVec.ofNat 16 h))
  rw [headerWeight_ofNat_toInt] at hw
  calc coefficient s hp k * 10000 ^ (weightOf h + 1 - k).toNat
      < 10000 ^ k * 10000 ^ (weightOf h + 1 - k).toNat :=
        Nat.mul_lt_mul_of_pos_right (coefficient_lt_pow hdigits) (Nat.pow_pos (by norm_num))
    _ = 10000 ^ (k + (weightOf h + 1 - k).toNat) := (pow_add _ _ _).symm
    _ ≤ (10 ^ 4) ^ 64 := Nat.pow_le_pow_right (by norm_num) (by omega)
    _ = 10 ^ 256 := (pow_mul _ _ _).symm

end

/-- Settles O39, by the exactness of the integer view. -/
theorem integerViewIsExact : Obligations.IntegerViewIsExact := by
  intro s i op hp n lw h k hdec hv hn hin hk
  refine ⟨_, exec_short_fits hdec hv hn hin, ?_⟩
  have hview := shortResults_integer (h := BitVec.ofNat 16 h) (coefficient_fits s hp k)
  rw [headerWeight_ofNat_toInt] at hview
  simp only [headerSign_ofNat_eq_one_iff] at hview
  exact hview hk

/-- Settles O40: the digits and the zeros after them are at most 64 in all. -/
theorem integerViewFitsItsRegister : Obligations.IntegerViewFitsItsRegister := by
  intro s i op hp n lw h k hdec hv hn hin hk
  have hs : shortShift k (headerWeight (BitVec.ofNat 16 h)) ≤ 0 := by
    rwa [shortShift_nonpos_iff, headerWeight_ofNat_toInt]
  have hmag : (shortRegisters h k (coefficient s hp k) lw).nIval.toInt.natAbs =
      coefficient s hp k * 10000 ^ (weightOf h + 1 - k).toNat := by
    rw [← neg_shortShift_ofNat, ← intView_natAbs (headerSign (BitVec.ofNat 16 h))]
    exact congrArg Int.natAbs (shortResults_nIval (coefficient_fits s hp k) hs)
  have hfit := magnitude_ofNat_fits (s := s) (hp := hp) hk
  refine ⟨_, exec_short_fits hdec hv hn hin, ndigits_le_of_shift_nonpos hs, hmag, ?_⟩
  rw [hmag]
  exact ⟨hfit, hfit.lt_two_pow, magnitude_ofNat_lt hk⟩

/-- Settles O41: the pattern under the sign is `rne64` of the quotient. -/
theorem floatViewIsNearestBinary64 : Obligations.FloatViewIsNearestBinary64 := by
  intro s i op hp n lw h k hdec hv hn hin hk
  rw [← headerWeight_ofNat_toInt] at hk ⊢
  obtain ⟨hkind, hival, p, hfval, hnear, hzero⟩ := shortResults_quotient (coefficient_fits s hp k) hk
  rw [headerSign_ofNat] at hfval
  exact ⟨_, p, exec_short_fits hdec hv hn hin, hkind, hival, hfval, hnear, hzero⟩

/-! ### `dscale` plays no part (R114) -/

/-- The coefficient depends on the digits' bytes alone. -/
theorem coefficient_congr {s s' : State} {hp : Nat} (h : ∀ a, hp + 2 ≤ a → byteAt s a = byteAt s' a) (k : Nat) :
    coefficient s hp k = coefficient s' hp k :=
  Finset.sum_congr rfl fun j _ => by
    rw [digitAt, digitAt, halfAt, halfAt, h _ (by omega), h _ (by omega)]

/-- Headers that differ in `dscale` only have one sign and one weight. -/
theorem headerFields_congr {h h' : Nat} (hhigh : h / 2 ^ 13 = h' / 2 ^ 13) (hlow : h % 2 ^ 7 = h' % 2 ^ 7) :
    headerSign (BitVec.ofNat 16 h) = headerSign (BitVec.ofNat 16 h') ∧
      headerWeight (BitVec.ofNat 16 h) = headerWeight (BitVec.ofNat 16 h') := by
  constructor <;> apply BitVec.eq_of_toNat_eq
  · rw [headerSign_ofNat, headerSign_ofNat, hhigh]
  · rw [headerWeight_ofNat, headerWeight_ofNat, hlow]

/-- Settles O43: the ends and the views of a Short header look at its sign and weight, never at its `dscale`. -/
theorem dscaleHasNoEffect : Obligations.DscaleHasNoEffect := by
  intro s s' i op hp n lw lw' h h' hdec hdec' hv hhigh hlow hbuflen hbytes
  have hv' : h' / 2 ^ 14 = 2 := by omega
  have ⟨h2, hfit, _⟩ := hdec
  rcases shortBranch_cases (BitVec.ofNat 16 h) h2 hfit with ⟨hodd, -⟩ | ⟨k, hn, ⟨hpast, -⟩ | ⟨hin, -⟩⟩
  · exact ⟨_, _, exec_short_odd hdec hv hodd, exec_short_odd hdec' hv' hodd, rfl, nofun, rfl, rfl, rfl, rfl, rfl⟩
  · exact ⟨_, _, exec_short_past hdec hv hn hpast, exec_short_past hdec' hv' hn (hbuflen ▸ hpast), rfl, nofun,
      rfl, rfl, rfl, rfl, rfl⟩
  · obtain ⟨hsign, hweight⟩ := headerFields_congr hhigh hlow
    refine ⟨_, _, exec_short_fits hdec hv hn hin, exec_short_fits hdec' hv' hn (hbuflen ▸ hin), rfl,
      fun _ => headerDscale_ofNat h, ?_⟩
    rw [coefficient_congr hbytes]
    exact shortResults_value_congr hsign hweight k _

/-! ### The row `NUM.SHORT` (log entry 6) -/

theorem shortHeaderWord_eq_append (sign : BitVec 1) (d : BitVec 6) (w : BitVec 7) :
    shortHeaderWord sign d w = 2#2 ++ sign ++ d ++ w := by
  apply BitVec.eq_of_toNat_eq
  rw [shortHeaderWord_toNat]
  simp only [append_toNat, BitVec.toNat_ofNat]
  omega

/-- Settles O45: the row takes the Short branch of its own word over the range at `POS`. -/
theorem shortRowCompletes : Obligations.ShortRowCompletes := by
  intro s sign d w k hlen hfit hk
  have hrow : exec (.numShort sign d w) s =
      .next (issueCommand 6 (shortBranch s s.pos.toNat s.len.toNat (shortHeaderWord sign d w)) s) :=
    runNumRow_fits hlen hfit _
  have hl := s.len.isLt
  rw [hrow]
  refine ⟨fun hodd => ?_, fun heven hpast => ?_, fun heven hin => ?_⟩
  · rw [shortBranch_odd _ (by omega)]
    rfl
  · rw [shortBranch_outOfBounds (k := k) _ hfit (by omega) hpast]
    rfl
  · rw [shortBranch_ok (k := k) _ (by omega) hin]
    have hinteger := shortResults_integer (h := shortHeaderWord sign d w) (coefficient_fits s s.pos.toNat k)
    have hquotient := shortResults_quotient (h := shortHeaderWord sign d w) (coefficient_fits s s.pos.toNat k)
    rw [headerWeight_short, headerSign_short] at hinteger hquotient
    refine ⟨_, rfl, shortHeaderWord_eq_append sign d w, headerSign_short .., headerDscale_short ..,
      headerWeight_short .., shortResults_nNdigits _ _ (by omega), rfl, ?_, ⟨rfl, rfl, rfl, rfl, rfl⟩, rfl, hinteger,
      fun hpos => ?_⟩
    · rw [shortResults_nShift _ _ (by omega), headerWeight_short, shortShift]
    · obtain ⟨hkind, hival, p, hfval, hnear, -⟩ := hquotient hpos
      exact ⟨hkind, hival, p, hfval, hnear⟩

end Sys2Proof.Machine
end

section
/-!
SUPPORT. The numeric result registers agree with each other after every step (R108 to R112, R115 to R117): a command
that succeeds writes a Short result, a special value or no numeric result at all, and each of them is consistent.
-/

namespace Sys2Proof.Machine

open Sys2Proof.Safety

/-! ### What a command can write -/

theorem numericConsistent_of_numericCleared {r : Results} (h : NumericCleared r) : NumericConsistent r := by
  obtain ⟨hkind, -, -, -, -, -, hcoef, hival, hfval, -, hhdr⟩ := h
  rw [NumericConsistent, hkind]
  exact ⟨hhdr, hcoef, hival, hfval⟩

/-- A Short result, whatever the length word over it (R108 to R112). -/
theorem shortResults_numericConsistent (h : Half) {k acc : Nat} (hk : k < 2 ^ 31) (hfit : FitsDigits k acc)
    (lw : Word) : NumericConsistent ((shortResults h k acc).setLenword lw) := by
  have hshift := shortResults_nShift h acc hk
  have htriple : (shortResults h k acc).nShift.toInt =
      ((shortResults h k acc).nNdigits.toNat : Int) - (shortResults h k acc).nWeight.toInt - 1 := by
    rw [hshift, shortResults_nNdigits h acc hk]
    rfl
  rcases le_or_gt (shortShift k (headerWeight h)) 0 with hs | hs
  · obtain ⟨hkind, hfval, -⟩ := shortResults_of_nonpos (acc := acc) hs
    have hival := shortResults_nIval hfit hs
    rw [intView_eq] at hival
    rw [← hshift] at hs hival
    rw [NumericConsistent, show ((shortResults h k acc).setLenword lw).nKind = .int from hkind]
    exact ⟨htriple, hs, hfval, hival⟩
  · obtain ⟨hkind, hival, -⟩ := shortResults_of_pos (acc := acc) hs
    obtain ⟨hfinite, -⟩ := rne64_quotient_isNearestEven hfit hs
    have hfval := shortResults_nFval hfit hs
    rw [← hshift] at hs hfval hfinite
    rw [NumericConsistent, show ((shortResults h k acc).setLenword lw).nKind = .float from hkind]
    exact ⟨htriple, hs, hival, hfval, hfinite⟩

/-- A Short range that succeeds has written its coefficient (R107). -/
theorem shortBranch_ok_coefficient {s : State} {hp n : Nat} {hdr : Half} {r : Results}
    (h : shortBranch s hp n hdr = .ok r) : r = shortResults hdr ((n - 2) / 2) (coefficient s hp ((n - 2) / 2)) := by
  rw [shortBranch, accumulate_eq, accNat_coefficient] at h
  split_ifs at h
  cases h
  rfl

theorem shortBranch_numericConsistent {s : State} {hp n : Nat} {hdr : Half} {r : Results} (hn : n < 2 ^ 32)
    (h : shortBranch s hp n hdr = .ok r) (lw : Word) : NumericConsistent (r.setLenword lw) := by
  obtain rfl := shortBranch_ok_coefficient h
  exact shortResults_numericConsistent hdr (by omega) (coefficient_fits s hp _) lw

/-- A special value, whatever the length word over it (R115 to R117). -/
theorem specialBranch_numericConsistent {hdr : Half} {r : Results} (h : specialBranch hdr = .ok r) (lw : Word) :
    NumericConsistent (r.setLenword lw) := by
  by_cases hh : hdr ∈ specialWords
  · rcases mem_specialWords_iff.mp hh with rfl | rfl | rfl <;> cases h <;> rfl
  · cases (specialBranch_of_not_mem hh).symm.trans h

theorem numCore_numericConsistent {s : State} {hp n : Nat} {r : Results} (hn : n < 2 ^ 32)
    (h : numCore s hp n = .ok r) (lw : Word) : NumericConsistent (r.setLenword lw) := by
  obtain ⟨hdr, hbranch⟩ := numCore_ok h
  rcases headerBranch_ok hbranch with hshort | hspecial
  · exact shortBranch_numericConsistent hn hshort lw
  · exact specialBranch_numericConsistent hspecial lw

theorem numfdecOutcome_numericConsistent {s : State} {r : Results} (h : numfdecOutcome s = .ok r) :
    NumericConsistent r := by
  rcases Nat.lt_or_ge s.len.toNat (fieldPad s.pos.toNat + 6) with hshort | hlen
  · cases (numfdecOutcome_tooShort hshort).symm.trans h
  rcases Nat.lt_or_ge s.buflen.toNat (s.pos.toNat + fieldPad s.pos.toNat + 4) with hpast | hfit
  · cases (numfdecOutcome_past hlen hpast).symm.trans h
  rw [numfdecOutcome_fits hlen hfit] at h
  have hl := s.len.isLt
  rcases hcore : numCore s _ _ with e | r' <;> rw [hcore] at h <;> cases h
  exact numCore_numericConsistent (by omega) hcore _

/-! ### Every instruction -/

/-- A command keeps the registers consistent when its outcome is so wherever it succeeds. -/
theorem numericConsistent_issueCommand {op : OpCode} {out : Except Raise Results} (s : State)
    (h : ∀ r, out = .ok r → NumericConsistent r) : NumericConsistent (issueCommand op out s).results := by
  cases out with
  | ok r => exact h r rfl
  | error e => exact numericConsistent_cleared

/-- An entry command leaves no numeric result (R184). -/
theorem numericConsistent_of_lastop_le {i : Instr} {s t : State} (h : exec i s = .next t)
    (hop : t.status.lastop.toNat ≤ 5) : NumericConsistent t.results := by
  obtain ⟨-, hentry, -⟩ := exec_resultsOfLastCommand h
  exact numericConsistent_of_numericCleared (hentry hop)

/-- An instruction establishes the invariant, whatever held before. -/
theorem exec_numericConsistent {i : Instr} {s t : State} (h : exec i s = .next t) : NumericConsistent t.results := by
  cases i with
  | reservedZero | reservedHigh => cases h
  | eofflen | ehasoff | etype | edec | eload | entryString | entryNumeric | entryBoolFalse | entryBoolTrue | entryNull
  | entryContainer | entryReserved6 | entryReserved7 =>
    refine numericConsistent_of_lastop_le h ?_
    cases h
    rw [issueCommand_lastop]
    decide
  | numdec =>
    cases h
    exact numericConsistent_issueCommand s fun r hr => numCore_numericConsistent s.len.isLt hr r.nLenword
  | numfdec =>
    cases h
    exact numericConsistent_issueCommand s fun _ => numfdecOutcome_numericConsistent
  | numShort =>
    cases h
    exact numericConsistent_issueCommand s fun r hr =>
      shortBranch_numericConsistent s.len.isLt (numRowOutcome_ok hr) r.nLenword
  | numNan | numPinf | numNinf =>
    cases h
    exact numericConsistent_issueCommand s fun r hr => Except.ok.inj (numRowOutcome_ok hr) ▸ rfl
  | numLongPos | numLongNeg | numSpecialBad =>
    cases h
    exact numericConsistent_issueCommand s fun _ hr => nomatch numRowOutcome_ok hr

/-- Settles O59: every instruction establishes the invariant, the reset event clears the registers, and no other action
changes one. -/
theorem stepKeepsNumericConsistent : Obligations.StepKeepsNumericConsistent := by
  intro s t hs hstep
  rcases step_status_results hstep with ⟨-, hresults⟩ | ⟨-, hresults⟩ | ⟨i, u, hexec⟩
  · rwa [hresults]
  · rw [hresults]
    exact numericConsistent_cleared
  · exact exec_numericConsistent hexec

end Sys2Proof.Machine
end

section
/-!
SUPPORT. The host's register accesses that have an effect: what a read returns (R142), what a write of an operand
register stores (R141), and that a write of a reserved code to `CMD` is refused (R66, R143).
-/

namespace Sys2Proof.Machine

/-! ### Register reads (R142) -/

/-- No register shows the actions still to come (R10). -/
theorem regValue_withPending (s : State) (rest : List HostAction) (r : Nat) :
    regValue { s with pending := rest } r = regValue s r := rfl

/-- The value read is the one the register held before the step. -/
theorem step_read_eq {s : State} {r : Nat} {rest : List HostAction} (h : s.pending = .readReg r :: rest) :
    step s = .next { s with pending := rest, seen := s.seen ++ [regValue s r] } := by
  rw [step_read h, hostRead, regValue_withPending]

/-- Settles O4: a read step is `step_read_eq`; each number of R10 has its own arm of `regValue`, the others have none. -/
theorem registerReadReturnsValue : Obligations.RegisterReadReturnsValue :=
  fun s => ⟨fun _ _ => step_read_eq, rfl, rfl, rfl, fun _ => regValue_unassigned s⟩

/-! ### Writes of the operand registers (R141) -/

theorem writeOperand_two (v : Nat) (s : State) : writeOperand 2 v s = { s with buflen := BitVec.ofNat 32 v } := rfl

theorem writeOperand_three (v : Nat) (s : State) : writeOperand 3 v s = { s with pos := BitVec.ofNat 32 v } := rfl

theorem writeOperand_four (v : Nat) (s : State) : writeOperand 4 v s = { s with len := BitVec.ofNat 32 v } := rfl

theorem writeOperand_five (v : Nat) (s : State) : writeOperand 5 v s = { s with eword := BitVec.ofNat 32 v } := rfl

/-- No instruction changes an operand register (R141). -/
theorem exec_operands {i : Instr} {s t : State} (h : exec i s = .next t) :
    t.buflen = s.buflen ∧ t.pos = s.pos ∧ t.len = s.len ∧ t.eword = s.eword := by
  obtain ⟨op, out, rfl, -, -⟩ := exec_next h
  simp

/-- Settles O5: a write step is `writeOperand` of its number, and an instruction keeps the operands. -/
theorem operandWriteStoresTruncated : Obligations.OperandWriteStoresTruncated := by
  refine ⟨fun s v rest => ⟨fun h => ?_, fun h => ?_, fun h => ?_, fun h => ?_⟩, fun _ _ _ => exec_operands⟩
  · rw [step_write h (by decide), writeOperand_two]
  · rw [step_write h (by decide), writeOperand_three]
  · rw [step_write h (by decide), writeOperand_four]
  · rw [step_write h (by decide), writeOperand_five]

/-! ### Reserved command codes (R66, R143) -/

theorem exec_reservedZero (s : State) : exec .reservedZero s = .refused (.reservedCommand 0) := rfl

theorem exec_reservedHigh (low : BitVec 3) (s : State) :
    exec (.reservedHigh low) s = .refused (.reservedCommand (1#1 ++ low)) := rfl

/-- A code of 8 to 15 decodes to the reserved row that holds its low three bits (R66). -/
theorem decodeCommand_high {op : OpCode} (h : 8 ≤ op.toNat) :
    ∃ low : BitVec 3, decodeCommand op = .reservedHigh low ∧ 1#1 ++ low = op := by
  revert op
  decide

/-- A reserved code is refused by its own name, in every state (R66, log entry 9). -/
theorem exec_decodeCommand_reserved {op : OpCode} (h : op = 0 ∨ 8 ≤ op.toNat) (s : State) :
    exec (decodeCommand op) s = .refused (.reservedCommand op) := by
  rcases h with rfl | hhigh
  · exact exec_reservedZero s
  · obtain ⟨low, hdecode, hop⟩ := decodeCommand_high hhigh
    rw [hdecode, exec_reservedHigh, hop]

/-- Settles O11: a write of `CMD` runs what its code decodes to, and a value of at most 15 is its own code. -/
theorem reservedCommandsRefused : Obligations.ReservedCommandsRefused := by
  refine ⟨fun s op rest hp hop => ?_, exec_reservedZero, exec_reservedHigh⟩
  rw [step_command hp]
  refine exec_decodeCommand_reserved ?_ _
  rcases hop with rfl | ⟨hlow, hhigh⟩
  · exact .inl rfl
  · have hcode : (BitVec.ofNat 4 op).toNat = op := Nat.mod_eq_of_lt (by omega)
    exact .inr (hlow.trans_eq hcode.symm)

end Sys2Proof.Machine
end

section
/-!
SUPPORT. The errors of R150 to R162: what error entry leaves (R159), the pairs each command can end in (R157), and that
NotYetParsed comes from reset alone (R155).
-/

namespace Sys2Proof.Machine

open Sys2Proof.Safety

/-! ### Error entry (R159) -/

/-- A command that ends with `err` not 0 has taken the error entry. -/
theorem issueCommand_of_err_ne_none {op : OpCode} {out : Except Raise Results} {s : State}
    (h : (issueCommand op out s).status.err ≠ .none) :
    ∃ e, issueCommand op out s = failed op (raiseErr e) (raiseSub e) s := by
  cases out with
  | ok r => exact absurd rfl h
  | error e => exact ⟨e, rfl⟩

/-- An instruction that ends with `err` not 0 ends as R159 says. -/
theorem exec_error {i : Instr} {s t : State} (hexec : exec i s = .next t) (herr : t.status.err ≠ .none) :
    t = failed t.status.lastop t.status.err t.status.sub s ∧ legalPair t.status.err t.status.sub = true := by
  obtain ⟨op, out, rfl, -, -⟩ := exec_next hexec
  obtain ⟨e, hfailed⟩ := issueCommand_of_err_ne_none herr
  rw [hfailed]
  exact ⟨rfl, legalPair_raise e⟩

/-- A command issued by its code reports that code (R13, R140). -/
theorem lastop_of_exec_decodeCommand {op : OpCode} {s t : State} (hexec : exec (decodeCommand op) s = .next t) :
    t.status.lastop = op := by
  by_cases hop : op = 0 ∨ 8 ≤ op.toNat
  · cases (exec_decodeCommand_reserved hop s).symm.trans hexec
  · obtain ⟨hne, hlow⟩ := not_or.mp hop
    have hpos : op.toNat ≠ 0 := fun h => hne (BitVec.eq_of_toNat_eq h)
    obtain ⟨out, hissue⟩ := exec_command_completes s (Nat.one_le_iff_ne_zero.mpr hpos) (Nat.le_of_not_lt hlow)
    cases hissue.symm.trans hexec
    exact issueCommand_lastop op out s

/-- Settles O50: every instruction ends in `issueCommand`, whose error side is the error entry, and a code decodes to
the command that reports it. -/
theorem errorEntryChangesOnlyStatus : Obligations.ErrorEntryChangesOnlyStatus := by
  refine ⟨fun _ _ _ => exec_error, fun op s t hexec herr => ?_⟩
  obtain ⟨hfailed, -⟩ := exec_error hexec herr
  rwa [lastop_of_exec_decodeCommand hexec] at hfailed

/-! ### The pairs a command can end in (R157) -/

/-- The pair (`err`, `sub`) an outcome is reported with (R150 to R153, R156). -/
def outcomePair : Except Raise Results → ErrCode × SubCause
  | .ok _ => (.none, .none)
  | .error e => (raiseErr e, raiseSub e)

theorem issueCommand_pair (op : OpCode) (out : Except Raise Results) (s : State) :
    ((issueCommand op out s).status.err, (issueCommand op out s).status.sub) = outcomePair out := by
  cases out <;> rfl

/-- A list holds exactly the pairs a command ends in, when no outcome is outside it and each of its pairs is the
outcome in one of the states given for it. -/
theorem mem_pairs_iff_exec {i : Instr} {op : OpCode} {out : State → Except Raise Results}
    {pairs : List (ErrCode × SubCause)} (hexec : ∀ s, exec i s = .next (issueCommand op (out s) s))
    (hsound : ∀ s, outcomePair (out s) ∈ pairs) (states : List State)
    (hreached : states.map (fun s => outcomePair (out s)) = pairs) (e : ErrCode) (c : SubCause) :
    (e, c) ∈ pairs ↔ ∃ s t, exec i s = .next t ∧ t.status.err = e ∧ t.status.sub = c := by
  constructor
  · intro hmem
    rw [← hreached] at hmem
    obtain ⟨s, -, hpair⟩ := List.mem_map.mp hmem
    obtain ⟨herr, hsub⟩ := Prod.mk.inj ((issueCommand_pair op (out s) s).trans hpair)
    exact ⟨s, _, hexec s, herr, hsub⟩
  · rintro ⟨s, t, ht, rfl, rfl⟩
    cases (hexec s).symm.trans ht
    rw [issueCommand_pair]
    exact hsound s

/-- The buffer of `n` bytes with the cells `m`, the range of a numeric command being all of it. -/
def State.wholeBuffer (n : Word) (m : Memory) : State := { State.reset with buflen := n, len := n, mem := m }

/-- `ETYPE` ends well or with the tag's error (R82). -/
theorem typeOutcome_pair (e : Word) :
    outcomePair (typeOutcome e) ∈ [(ErrCode.none, SubCause.none), (.malformedHeader, .entryTag)] := by
  rcases Nat.lt_or_ge 5 (entryTag e).toNat with htag | htag
  · rw [typeOutcome_unused htag]
    decide
  · rw [typeOutcome_legal htag]
    simp [outcomePair]

/-- A whole entry word ends well or with the tag's error (R83). -/
theorem entryOutcome_pair (e : Word) :
    outcomePair (entryOutcome e) ∈ [(ErrCode.none, SubCause.none), (.malformedHeader, .entryTag)] := by
  rcases entryOutcome_cases e with ⟨-, he⟩ | ⟨-, he⟩ <;> rw [he] <;> simp [outcomePair, raiseErr, raiseSub]

/-- `ELOAD` adds the error of its read (R84). -/
theorem loadOutcome_pair (s : State) : outcomePair (loadOutcome s) ∈
    [(ErrCode.none, SubCause.none), (.outOfBounds, .none), (.malformedHeader, .entryTag)] := by
  rw [loadOutcome, readU32LE_eq]
  split_ifs
  · simp [outcomePair, raiseErr, raiseSub]
  · have hpair := entryOutcome_pair
    simp only [List.mem_cons] at hpair ⊢
    exact (hpair _).imp_right .inr

/-- Every pair but that of an unused tag is in the list of the two numeric commands. -/
theorem outcomePair_numeric {out : Except Raise Results} (h : out ≠ .error .entryTag) : outcomePair out ∈
    [(ErrCode.none, SubCause.none), (.outOfBounds, .none), (.malformedHeader, .numSpecial),
      (.malformedHeader, .numRange), (.unsupportedFeature, .numLong)] := by
  rcases out with e | r
  · cases e with
    | entryTag => exact absurd rfl h
    | outOfBounds | numSpecial | numRange | numLong => decide
  · exact List.mem_cons_self

/-- No branch of the Numeric Decoder looks at an entry's tag (R104 to R120). -/
theorem headerBranch_ne_entryTag {s : State} {hp n : Nat} (h : Half) (hn : 2 ≤ n) (hfit : hp + 2 ≤ s.buflen.toNat) :
    headerBranch s hp n h ≠ .error .entryTag := by
  unfold headerBranch
  split_ifs
  · rcases shortBranch_cases h hn hfit with ⟨-, hb⟩ | ⟨k, -, ⟨-, hb⟩ | ⟨-, hb⟩⟩ <;> rw [hb] <;> nofun
  · rcases specialBranch_cases h with hb | ⟨k, f, hb, -⟩ <;> rw [hb] <;> nofun
  · nofun

theorem numCore_ne_entryTag (s : State) (hp n : Nat) : numCore s hp n ≠ .error .entryTag := by
  rcases Nat.lt_or_ge n 2 with hshort | hn
  · rw [numCore_tooShort hshort]
    nofun
  rcases Nat.lt_or_ge s.buflen.toNat (hp + 2) with hpast | hfit
  · rw [numCore_past hn hpast]
    nofun
  · rw [numCore_fits hn hfit]
    exact headerBranch_ne_entryTag _ hn hfit

theorem numfdecOutcome_ne_entryTag (s : State) : numfdecOutcome s ≠ .error .entryTag := by
  rcases Nat.lt_or_ge s.len.toNat (fieldPad s.pos.toNat + 6) with hshort | hlen
  · rw [numfdecOutcome_tooShort hshort]
    nofun
  rcases Nat.lt_or_ge s.buflen.toNat (s.pos.toNat + fieldPad s.pos.toNat + 4) with hpast | hfit
  · rw [numfdecOutcome_past hlen hpast]
    nofun
  · rw [numfdecOutcome_fits hlen hfit]
    intro h
    rcases hcore : numCore s _ _ with e | r <;> rw [hcore] at h <;> cases h
    exact numCore_ne_entryTag _ _ _ hcore

/-- Settles O52: for each command no outcome is outside its list, and the states given reach the list's pairs one by
one. -/
theorem commandOutcomeTable : Obligations.CommandOutcomeTable := by
  intro i pairs hrow
  simp only [List.mem_cons, Prod.mk.injEq, List.not_mem_nil, or_false] at hrow
  rcases hrow with ⟨rfl, rfl⟩ | ⟨rfl, rfl⟩ | ⟨rfl, rfl⟩ | ⟨rfl, rfl⟩ | ⟨rfl, rfl⟩ | ⟨rfl, rfl⟩ | ⟨rfl, rfl⟩
  case inl | inr.inl => exact mem_pairs_iff_exec (fun _ => rfl) (fun _ => List.mem_cons_self) [State.reset] rfl
  case inr.inr.inl =>
    exact mem_pairs_iff_exec (fun _ => rfl) (fun s => typeOutcome_pair s.eword)
      [State.reset, { State.reset with eword := 0x60000000 }] rfl
  case inr.inr.inr.inl =>
    exact mem_pairs_iff_exec (fun _ => rfl) (fun s => entryOutcome_pair s.eword)
      [State.reset, { State.reset with eword := 0x60000000 }] rfl
  case inr.inr.inr.inr.inl =>
    exact mem_pairs_iff_exec (fun _ => rfl) loadOutcome_pair
      [.wholeBuffer 4 [], State.reset, .wholeBuffer 4 [(3, 0x60)]] rfl
  case inr.inr.inr.inr.inr.inl =>
    exact mem_pairs_iff_exec exec_numdec (fun s => outcomePair_numeric (numCore_ne_entryTag s _ _))
      [.wholeBuffer 2 [(1, 0xC0)], { State.reset with len := 2 }, .wholeBuffer 2 [(0, 1), (1, 0xC0)], State.reset,
        .wholeBuffer 2 []] rfl
  case inr.inr.inr.inr.inr.inr =>
    exact mem_pairs_iff_exec exec_numfdec (fun s => outcomePair_numeric (numfdecOutcome_ne_entryTag s))
      [.wholeBuffer 6 [(5, 0xC0)], { State.reset with len := 6 }, .wholeBuffer 6 [(4, 1), (5, 0xC0)], State.reset,
        .wholeBuffer 6 []] rfl

/-! ### NotYetParsed (R155) -/

/-- Without a write of `CMD` a step is answered, and keeps `STATUS` unless it is the reset event. -/
theorem step_status_of_no_command {s : State} (h : ∀ v, s.pending.head? ≠ some (.writeReg 0 v)) :
    ∃ t, step s = .next t ∧
      (t.status = s.status ∨ (s.pending.head? = some .reset ∧ t.status = Status.afterReset)) := by
  rcases hp : s.pending with _ | ⟨a, rest⟩
  · exact ⟨s, step_idle hp, .inl rfl⟩
  rw [hp] at h
  cases a with
  | writeReg r v =>
    have hr : r ≠ 0 := by
      rintro rfl
      exact h v rfl
    exact ⟨_, step_write hp hr, .inl (writeOperand_status ..)⟩
  | readReg r => exact ⟨_, step_read hp, .inl rfl⟩
  | writeBuffer o b => exact ⟨_, step_writeBuffer hp, .inl rfl⟩
  | bindBuffer bs => exact ⟨_, step_bindBuffer hp, .inl rfl⟩
  | reset => exact ⟨_, step_reset hp, .inr ⟨rfl, rfl⟩⟩

/-- No instruction raises NotYetParsed, and each that answers is done (R155). -/
theorem exec_parsed {i : Instr} {s t : State} (h : exec i s = .next t) :
    t.status.err ≠ .notYetParsed ∧ t.status.done = true := by
  obtain ⟨op, out, rfl, -, -⟩ := exec_next h
  exact ⟨issueCommand_err_ne_notYetParsed op out s, issueCommand_done op out s⟩

/-- A step that is a write of `CMD` and is answered has run an instruction (R12). -/
theorem exec_of_step_command {s t : State} {v : Nat} (hhead : s.pending.head? = some (.writeReg 0 v))
    (h : step s = .next t) : ∃ i u, exec i u = .next t := by
  obtain ⟨rest, hp⟩ := List.head?_eq_some_iff.mp hhead
  exact ⟨_, _, (step_command hp).symm.trans h⟩

/-- Settles O54: only a command and the reset event change `STATUS`, and a command leaves another `err`. -/
theorem notYetParsedOnlyFromReset : Obligations.NotYetParsedOnlyFromReset := by
  refine ⟨⟨rfl, rfl⟩, fun s herr hdone hcmd => ?_, fun _ _ _ => exec_parsed, fun s t herr hdone hreset hstep => ?_⟩
  · obtain ⟨t, hstep, hstatus | ⟨-, hstatus⟩⟩ := step_status_of_no_command hcmd <;>
      refine ⟨t, hstep, ?_⟩ <;> rw [hstatus]
    · exact ⟨herr, hdone⟩
    · exact ⟨rfl, rfl⟩
  · by_cases hcmd : ∃ v, s.pending.head? = some (.writeReg 0 v)
    · obtain ⟨v, hhead⟩ := hcmd
      obtain ⟨i, u, hexec⟩ := exec_of_step_command hhead hstep
      exact exec_parsed hexec
    · obtain ⟨t', hstep', hstatus⟩ := step_status_of_no_command (not_exists.mp hcmd)
      cases hstep'.symm.trans hstep
      rcases hstatus with hstatus | ⟨hhead, -⟩
      · rw [hstatus]
        exact ⟨herr, hdone⟩
      · exact absurd hhead hreset

end Sys2Proof.Machine
end

section
/-!
SUPPORT. The reset event as the host sees it: the registers at their reset values, the buffer as it was (R180, R181).
-/

namespace Sys2Proof.Machine

open Sys2Proof.Safety

/-- The register values depend on the operand registers, `STATUS` and the results only, which the reset event takes from
`State.reset` (R180). -/
theorem regValue_resetEvent (s : State) (r : Nat) : regValue (resetEvent s) r = regValue State.reset r := rfl

/-- The reset event does not clear the buffer (R181). -/
theorem byteAt_resetEvent (s : State) (a : Nat) : byteAt (resetEvent s) a = byteAt s a := by
  rw [byteAt, resetEvent_mem, byteAt]

/-- Settles O2: the step is `step_reset`, and taking the action from `pending` changes no register and no byte. -/
theorem resetEventRestoresRegisters : Obligations.ResetEventRestoresRegisters := fun s rest hp =>
  ⟨resetEvent { s with pending := rest }, step_reset hp, regValue_resetEvent _, byteAt_resetEvent _,
    resetEvent_pending _, resetEvent_seen _⟩

end Sys2Proof.Machine
end
